-- ==== Sys2Proof/Word.lean ====
section
/-! DEFINITION. Word.lean: the sizes of data this hardware moves (spec/00_scope.md R7, R8). Every value is an
unsigned number of a fixed width, so each is a bit vector; a general register is named by a number 0 to 15. -/

namespace Sys2Proof

/-- A byte: one memory cell, one general register, one timer (R7). -/
abbrev Byte := BitVec 8

/-- A 16-bit word: an instruction word, `I`, `PC`, a call-stack entry, the fault information word (R7). -/
abbrev Word := BitVec 16

/-- A 12-bit address immediate, the field `nnn` (R51). -/
abbrev Addr12 := BitVec 12

/-- A 4-bit field (R51). -/
abbrev Nibble := BitVec 4

/-- The number of a general register; "register index always in [0,15]" holds by construction (R11). -/
abbrev RegIdx := Fin 16

/-- Register 15, the flag register VF (R9, R12). -/
abbrev vf : RegIdx := 15

end Sys2Proof
end

