-- ==== Sys2Proof/Config.lean ====
section
/-! DEFINITION. Config.lean: the parameter FONT_BASE of spec/00_scope.md R7, and the two values of the outside world the model
leaves free: the random byte of a draw and the level the host drives on the key lines. The sizes the source fixes (R7)
are the widths of the types of State; the font bytes stand in Machine/Memory.lean. -/

namespace Sys2Proof

/-- The values of FONT_BASE, the address of glyph 0: "PARAMETER, ... constraint 0 <= FONT_BASE <= 0x1B0" (R7;
spec/20_memory.md R32). A machine is built at one of them (`Machine.State.resetAt`) and keeps it (log entry 4). -/
abbrev FontBase := Fin 0x1B1

namespace Config

/-- The default of FONT_BASE (R7; log entry 4: PRESUMED, the source gives no address). Only `Machine.State.reset` takes
it. -/
def defaultFontBase : FontBase := 0x050

/-- FREE VALUE (log entry 2): the byte the host presents at the n-th draw when it has lined up none; "a draw under no
law" (R25, R121, U12). It has no body, so nothing can be proved of its values. -/
opaque randByte : Nat → Byte

/-- FREE VALUE (log entry 3): the level the host drives on the 16 key lines after the n-th cycle when it has lined up
none; the host may "change any key line" between cycles (R18, R190). It has no body. -/
opaque keyDrive : Nat → BitVec 16

end Config

end Sys2Proof
end

