-- ==== Sys2Proof/Syntax.lean ====
section
/-! DEFINITION. Syntax.lean: the instructions, one constructor per row of spec/opcode_table.json (spec/30_encoding.md R62):
34 instructions and NOP. A constructor holds the fields its format uses (R52) and no ignored bit: the decoder does
not examine those (R60), so two words that differ only there are the same instruction. -/

namespace Sys2Proof

/-- An instruction of R62. `x`, `y` name general registers, `kk` is an 8-bit immediate, `nnn` a 12-bit address, `n` a
sprite height (R51). -/
inductive Instr where
  /-- `CLS`, R129. -/
  | cls
  /-- `RET`, R73. -/
  | ret
  /-- `JP nnn`, R71. -/
  | jp (nnn : Addr12)
  /-- `CALL nnn`, R72. -/
  | call (nnn : Addr12)
  /-- `SE Vx, kk`, R74. -/
  | seImm (x : RegIdx) (kk : Byte)
  /-- `SNE Vx, kk`, R75. -/
  | sneImm (x : RegIdx) (kk : Byte)
  /-- `SE Vx, Vy`, R76. -/
  | seReg (x y : RegIdx)
  /-- `LD Vx, kk`, R90. -/
  | ldImm (x : RegIdx) (kk : Byte)
  /-- `ADD Vx, kk`, R101. -/
  | addImm (x : RegIdx) (kk : Byte)
  /-- `LD Vx, Vy`, R91. -/
  | ldReg (x y : RegIdx)
  /-- `OR Vx, Vy`, R110. -/
  | orReg (x y : RegIdx)
  /-- `AND Vx, Vy`, R111. -/
  | andReg (x y : RegIdx)
  /-- `XOR Vx, Vy`, R112. -/
  | xorReg (x y : RegIdx)
  /-- `ADD Vx, Vy`, R102. -/
  | addReg (x y : RegIdx)
  /-- `SUB Vx, Vy`, R103. -/
  | subReg (x y : RegIdx)
  /-- `SHR Vx`, R113. -/
  | shr (x : RegIdx)
  /-- `SUBN Vx, Vy`, R104. -/
  | subnReg (x y : RegIdx)
  /-- `SHL Vx`, R114. -/
  | shl (x : RegIdx)
  /-- `SNE Vx, Vy`, R77. -/
  | sneReg (x y : RegIdx)
  /-- `LD I, nnn`, R92. -/
  | ldI (nnn : Addr12)
  /-- `JP V0, nnn`, R78. -/
  | jpV0 (nnn : Addr12)
  /-- `RND Vx, kk`, R120. -/
  | rnd (x : RegIdx) (kk : Byte)
  /-- `DRW Vx, Vy, n`, R126. -/
  | drw (x y : RegIdx) (n : Nibble)
  /-- `SKP Vx`, R141. -/
  | skp (x : RegIdx)
  /-- `SKNP Vx`, R142. -/
  | sknp (x : RegIdx)
  /-- `LD Vx, DT`, R150. -/
  | ldVxDt (x : RegIdx)
  /-- `LD Vx, K`, the key-wait, R143. -/
  | ldVxK (x : RegIdx)
  /-- `LD DT, Vx`, R151. -/
  | ldDtVx (x : RegIdx)
  /-- `LD ST, Vx`, R152. -/
  | ldStVx (x : RegIdx)
  /-- `ADD I, Vx`, R160. -/
  | addI (x : RegIdx)
  /-- `LD F, Vx`, R161. -/
  | ldF (x : RegIdx)
  /-- `LD B, Vx`, R163. -/
  | ldB (x : RegIdx)
  /-- `LD [I], Vx`, R164. -/
  | stRegs (x : RegIdx)
  /-- `LD Vx, [I]`, R165. -/
  | ldRegs (x : RegIdx)
  /-- NOP: every word that matches no other row, R70. -/
  | nop
  deriving DecidableEq, Repr

/-- The instruction's mnemonic as spec/opcode_table.json spells it. -/
def Instr.mnemonic : Instr → String
  | .cls => "CLS"
  | .ret => "RET"
  | .jp _ => "JP_nnn"
  | .call _ => "CALL_nnn"
  | .seImm _ _ => "SE_Vx__kk"
  | .sneImm _ _ => "SNE_Vx__kk"
  | .seReg _ _ => "SE_Vx__Vy"
  | .ldImm _ _ => "LD_Vx__kk"
  | .addImm _ _ => "ADD_Vx__kk"
  | .ldReg _ _ => "LD_Vx__Vy"
  | .orReg _ _ => "OR_Vx__Vy"
  | .andReg _ _ => "AND_Vx__Vy"
  | .xorReg _ _ => "XOR_Vx__Vy"
  | .addReg _ _ => "ADD_Vx__Vy"
  | .subReg _ _ => "SUB_Vx__Vy"
  | .shr _ => "SHR_Vx"
  | .subnReg _ _ => "SUBN_Vx__Vy"
  | .shl _ => "SHL_Vx"
  | .sneReg _ _ => "SNE_Vx__Vy"
  | .ldI _ => "LD_I__nnn"
  | .jpV0 _ => "JP_V0__nnn"
  | .rnd _ _ => "RND_Vx__kk"
  | .drw _ _ _ => "DRW_Vx__Vy__n"
  | .skp _ => "SKP_Vx"
  | .sknp _ => "SKNP_Vx"
  | .ldVxDt _ => "LD_Vx__DT"
  | .ldVxK _ => "LD_Vx__K"
  | .ldDtVx _ => "LD_DT__Vx"
  | .ldStVx _ => "LD_ST__Vx"
  | .addI _ => "ADD_I__Vx"
  | .ldF _ => "LD_F__Vx"
  | .ldB _ => "LD_B__Vx"
  | .stRegs _ => "LD__I___Vx"
  | .ldRegs _ => "LD_Vx___I"
  | .nop => "NOP"

end Sys2Proof
end

