-- ==== Sys2Proof/WellFormed.lean ====
section
/-! DEFINITION. WellFormed.lean: the checks on data that enters the model from outside. An `Instr` needs no check: the
type of each field is exactly as wide as the field (spec/30_encoding.md R51, R53, and R11 "register index always in
[0,15]"), so every term of it is an instruction some word encodes. What can be ill-formed is an instruction word
that is not spelt as an assembler spells it, a program image that does not fit, and a FONT_BASE outside its
constraint. -/

namespace Sys2Proof

/-- `w` is a word an assembler emits (R62, column "canonical"; R65 for NOP): one of the 34 instructions with its
ignored bits at the conventional values, or 0x0001. DESIGN CHOICE (log entry 6): `SHR` and `SHL` are canonical with
`y = 0` only. The column shows their `y` free and R64 lets `SHR Vx, Vy` be written; R64's "canonical assembler sets
`y = 0` when it is omitted", and `Vy` is always omitted here, since it is no operand of either instruction. -/
def canonicalWord (w : Word) : Bool :=
  match w.extractLsb' 12 4 with
  | 0x0#4 => w == 0x00E0 || w == 0x00EE || w == 0x0001
  | 0x5#4 => w.extractLsb' 0 4 == 0
  | 0x9#4 => w.extractLsb' 0 4 == 0
  | 0x8#4 =>
    match w.extractLsb' 0 4 with
    | 0x6#4 => w.extractLsb' 4 4 == 0
    | 0xE#4 => w.extractLsb' 4 4 == 0
    | n => n.ult 8
  | 0xE#4 => w.extractLsb' 0 8 == 0x9E || w.extractLsb' 0 8 == 0xA1
  | 0xF#4 =>
    [0x07, 0x0A, 0x15, 0x18, 0x1E, 0x29, 0x33, 0x55, 0x65].contains (w.extractLsb' 0 8).toNat
  | _ => true

/-- The image fits above the program start address: at most 3584 bytes (R43). -/
def imageFits (img : List Byte) : Bool := decide (img.length ≤ 3584)

/-- A number taken as FONT_BASE: all 80 font bytes lie below 0x200 (R7, R32), or it is rejected. -/
def fontBaseOf (a : Nat) : Option FontBase := if h : a ≤ 0x1B0 then some ⟨a, Nat.lt_succ_of_le h⟩ else none

end Sys2Proof
end

