-- ==== Sys2Proof/Decode.lean ====
section
/-! DEFINITION. Decode.lean: the two-level decoder of spec/30_encoding.md (R54 to R60, R63), the byte order of an instruction
word (spec/20_memory.md R36), the encoder that writes the canonical word of an instruction (R62), and the rows of
R62 as data. The opcode numbers are the spec's, which takes all but two of them from general knowledge (R61). -/

namespace Sys2Proof

/-! ### Bytes and words -/

/-- The word of two bytes in memory order: "the byte at the lower address is the high byte" (R36). -/
def wordOfBytes (first second : Byte) : Word := first.setWidth 16 <<< 8 ||| second.setWidth 16

/-- The two bytes of a word in memory order, `w[15:8]` then `w[7:0]` (R36, R43). -/
def bytesOfWord (w : Word) : List Byte := [w.extractLsb' 8 8, w.extractLsb' 0 8]

/-! ### Fields (R51) -/

/-- The group, `w[15:12]`. -/
def fieldOp (w : Word) : Nibble := w.extractLsb' 12 4

/-- The first register index, `w[11:8]`. -/
def fieldX (w : Word) : RegIdx := (w.extractLsb' 8 4).toFin

/-- The second register index, `w[7:4]`. -/
def fieldY (w : Word) : RegIdx := (w.extractLsb' 4 4).toFin

/-- The sprite height, or the selector of groups 0, 8 and E, `w[3:0]`. -/
def fieldN (w : Word) : Nibble := w.extractLsb' 0 4

/-- The 8-bit immediate, or the selector of group F, `w[7:0]`. -/
def fieldKK (w : Word) : Byte := w.extractLsb' 0 8

/-- The 12-bit address, `w[11:0]`. -/
def fieldNNN (w : Word) : Addr12 := w.extractLsb' 0 12

/-! ### The decoder -/

/-- Sub-table T0, indexed by `w[3:0]` (R55). -/
def decodeT0 (w : Word) : Instr :=
  match fieldN w with
  | 0x0#4 => .cls
  | 0xE#4 => .ret
  | _ => .nop

/-- Sub-table T8, indexed by `w[3:0]` (R56). -/
def decodeT8 (w : Word) : Instr :=
  match fieldN w with
  | 0x0#4 => .ldReg (fieldX w) (fieldY w)
  | 0x1#4 => .orReg (fieldX w) (fieldY w)
  | 0x2#4 => .andReg (fieldX w) (fieldY w)
  | 0x3#4 => .xorReg (fieldX w) (fieldY w)
  | 0x4#4 => .addReg (fieldX w) (fieldY w)
  | 0x5#4 => .subReg (fieldX w) (fieldY w)
  | 0x6#4 => .shr (fieldX w)
  | 0x7#4 => .subnReg (fieldX w) (fieldY w)
  | 0xE#4 => .shl (fieldX w)
  | _ => .nop

/-- Sub-table TE, indexed by `w[3:0]` (R57). -/
def decodeTE (w : Word) : Instr :=
  match fieldN w with
  | 0xE#4 => .skp (fieldX w)
  | 0x1#4 => .sknp (fieldX w)
  | _ => .nop

/-- Sub-table TF, indexed by `w[7:0]` (R58). -/
def decodeTF (w : Word) : Instr :=
  match fieldKK w with
  | 0x07#8 => .ldVxDt (fieldX w)
  | 0x0A#8 => .ldVxK (fieldX w)
  | 0x15#8 => .ldDtVx (fieldX w)
  | 0x18#8 => .ldStVx (fieldX w)
  | 0x1E#8 => .addI (fieldX w)
  | 0x29#8 => .ldF (fieldX w)
  | 0x33#8 => .ldB (fieldX w)
  | 0x55#8 => .stRegs (fieldX w)
  | 0x65#8 => .ldRegs (fieldX w)
  | _ => .nop

/-- `Decode` of R63: level 1 is indexed by `w[15:12]` (R54). Total: "the engine never stops on an unrecognized opcode"
(R59). -/
def decode (w : Word) : Instr :=
  match fieldOp w with
  | 0x0#4 => decodeT0 w
  | 0x1#4 => .jp (fieldNNN w)
  | 0x2#4 => .call (fieldNNN w)
  | 0x3#4 => .seImm (fieldX w) (fieldKK w)
  | 0x4#4 => .sneImm (fieldX w) (fieldKK w)
  | 0x5#4 => .seReg (fieldX w) (fieldY w)
  | 0x6#4 => .ldImm (fieldX w) (fieldKK w)
  | 0x7#4 => .addImm (fieldX w) (fieldKK w)
  | 0x8#4 => decodeT8 w
  | 0x9#4 => .sneReg (fieldX w) (fieldY w)
  | 0xA#4 => .ldI (fieldNNN w)
  | 0xB#4 => .jpV0 (fieldNNN w)
  | 0xC#4 => .rnd (fieldX w) (fieldKK w)
  | 0xD#4 => .drw (fieldX w) (fieldY w) (fieldN w)
  | 0xE#4 => decodeTE w
  | _ => decodeTF w

/-- Why bytes are not an instruction. The only reason is that there are fewer than two: every word decodes (R63). -/
inductive DecodeReject where
  /-- The list of bytes is empty. -/
  | noBytes
  /-- The list holds one byte; an instruction has two (R50). -/
  | halfWord (first : Byte)
  deriving DecidableEq, Repr

/-- What the decoder reads from a list of bytes. -/
inductive Decoded where
  /-- The instruction of the first two bytes, and the bytes after it. -/
  | instr (i : Instr) (rest : List Byte)
  /-- No instruction stands there. -/
  | rejected (why : DecodeReject)
  deriving DecidableEq, Repr

/-- Decodes the instruction at the head of bytes in memory order (R36, R50). -/
def decodeBytes : List Byte → Decoded
  | [] => .rejected .noBytes
  | [b] => .rejected (.halfWord b)
  | b :: c :: rest => .instr (decode (wordOfBytes b c)) rest

/-- The instruction the decoder reads from the bits `w` of a row of spec/opcode_table.json, laid out in memory order;
bits at and above `nbits` are 0. -/
def decodeTableWord (nbits w : Nat) : Option Instr :=
  match decodeBytes (bytesOfWord (BitVec.ofNat 16 (w % 2 ^ nbits))) with
  | .instr i _ => some i
  | .rejected _ => none

/-! ### The encoder -/

/-- A register number as a field (R51). -/
def regField (x : RegIdx) : Nibble := BitVec.ofFin x

/-- Format NNN (R52). -/
def packNNN (op : Nibble) (nnn : Addr12) : Word := op.setWidth 16 <<< 12 ||| nnn.setWidth 16

/-- Formats XKK and XB (R52). -/
def packXKK (op : Nibble) (x : RegIdx) (kk : Byte) : Word :=
  op.setWidth 16 <<< 12 ||| (regField x).setWidth 16 <<< 8 ||| kk.setWidth 16

/-- Formats XY, XYS and XYN (R52). -/
def packXYN (op : Nibble) (x y : RegIdx) (n : Nibble) : Word :=
  op.setWidth 16 <<< 12 ||| (regField x).setWidth 16 <<< 8 ||| (regField y).setWidth 16 <<< 4 ||| n.setWidth 16

/-- The canonical word of an instruction (R62; R65 for NOP). -/
def encode : Instr → Word
  | .cls => 0x00E0
  | .ret => 0x00EE
  | .jp nnn => packNNN 0x1 nnn
  | .call nnn => packNNN 0x2 nnn
  | .seImm x kk => packXKK 0x3 x kk
  | .sneImm x kk => packXKK 0x4 x kk
  | .seReg x y => packXYN 0x5 x y 0x0
  | .ldImm x kk => packXKK 0x6 x kk
  | .addImm x kk => packXKK 0x7 x kk
  | .ldReg x y => packXYN 0x8 x y 0x0
  | .orReg x y => packXYN 0x8 x y 0x1
  | .andReg x y => packXYN 0x8 x y 0x2
  | .xorReg x y => packXYN 0x8 x y 0x3
  | .addReg x y => packXYN 0x8 x y 0x4
  | .subReg x y => packXYN 0x8 x y 0x5
  | .shr x => packXYN 0x8 x 0 0x6
  | .subnReg x y => packXYN 0x8 x y 0x7
  | .shl x => packXYN 0x8 x 0 0xE
  | .sneReg x y => packXYN 0x9 x y 0x0
  | .ldI nnn => packNNN 0xA nnn
  | .jpV0 nnn => packNNN 0xB nnn
  | .rnd x kk => packXKK 0xC x kk
  | .drw x y n => packXYN 0xD x y n
  | .skp x => packXKK 0xE x 0x9E
  | .sknp x => packXKK 0xE x 0xA1
  | .ldVxDt x => packXKK 0xF x 0x07
  | .ldVxK x => packXKK 0xF x 0x0A
  | .ldDtVx x => packXKK 0xF x 0x15
  | .ldStVx x => packXKK 0xF x 0x18
  | .addI x => packXKK 0xF x 0x1E
  | .ldF x => packXKK 0xF x 0x29
  | .ldB x => packXKK 0xF x 0x33
  | .stRegs x => packXKK 0xF x 0x55
  | .ldRegs x => packXKK 0xF x 0x65
  | .nop => 0x0001

/-! ### The opcode map as data (R62) -/

/-- A row of R62: a word `w` is the instruction when `w & mask = pattern`. -/
structure OpcodeRow where
  mnemonic : String
  mask : Word
  pattern : Word
  deriving DecidableEq, Repr

/-- The word matches the row (R62). -/
def OpcodeRow.accepts (r : OpcodeRow) (w : Word) : Bool := w &&& r.mask == r.pattern

/-- No word matches both rows: they fix some common bit differently. -/
def OpcodeRow.disjoint (r q : OpcodeRow) : Bool := (r.pattern ^^^ q.pattern) &&& (r.mask &&& q.mask) != 0

/-- Rows 1 to 18 of R62. -/
def opcodeRowsLow : List OpcodeRow :=
  [⟨"CLS", 0xF00F, 0x0000⟩, ⟨"RET", 0xF00F, 0x000E⟩, ⟨"JP_nnn", 0xF000, 0x1000⟩, ⟨"CALL_nnn", 0xF000, 0x2000⟩,
   ⟨"SE_Vx__kk", 0xF000, 0x3000⟩, ⟨"SNE_Vx__kk", 0xF000, 0x4000⟩, ⟨"SE_Vx__Vy", 0xF000, 0x5000⟩,
   ⟨"LD_Vx__kk", 0xF000, 0x6000⟩, ⟨"ADD_Vx__kk", 0xF000, 0x7000⟩, ⟨"LD_Vx__Vy", 0xF00F, 0x8000⟩,
   ⟨"OR_Vx__Vy", 0xF00F, 0x8001⟩, ⟨"AND_Vx__Vy", 0xF00F, 0x8002⟩, ⟨"XOR_Vx__Vy", 0xF00F, 0x8003⟩,
   ⟨"ADD_Vx__Vy", 0xF00F, 0x8004⟩, ⟨"SUB_Vx__Vy", 0xF00F, 0x8005⟩, ⟨"SHR_Vx", 0xF00F, 0x8006⟩,
   ⟨"SUBN_Vx__Vy", 0xF00F, 0x8007⟩, ⟨"SHL_Vx", 0xF00F, 0x800E⟩]

/-- Rows 19 to 34 of R62. -/
def opcodeRowsHigh : List OpcodeRow :=
  [⟨"SNE_Vx__Vy", 0xF000, 0x9000⟩, ⟨"LD_I__nnn", 0xF000, 0xA000⟩, ⟨"JP_V0__nnn", 0xF000, 0xB000⟩,
   ⟨"RND_Vx__kk", 0xF000, 0xC000⟩, ⟨"DRW_Vx__Vy__n", 0xF000, 0xD000⟩, ⟨"SKP_Vx", 0xF00F, 0xE00E⟩,
   ⟨"SKNP_Vx", 0xF00F, 0xE001⟩, ⟨"LD_Vx__DT", 0xF0FF, 0xF007⟩, ⟨"LD_Vx__K", 0xF0FF, 0xF00A⟩,
   ⟨"LD_DT__Vx", 0xF0FF, 0xF015⟩, ⟨"LD_ST__Vx", 0xF0FF, 0xF018⟩, ⟨"ADD_I__Vx", 0xF0FF, 0xF01E⟩,
   ⟨"LD_F__Vx", 0xF0FF, 0xF029⟩, ⟨"LD_B__Vx", 0xF0FF, 0xF033⟩, ⟨"LD__I___Vx", 0xF0FF, 0xF055⟩,
   ⟨"LD_Vx___I", 0xF0FF, 0xF065⟩]

/-- The 34 rows of R62; NOP has none. -/
def opcodeRows : List OpcodeRow := opcodeRowsLow ++ opcodeRowsHigh

end Sys2Proof
end

