-- ==== Sys2Proof/Machine/State.lean ====
section
/-! DEFINITION. Machine/State.lean: the architectural state of the core (spec/10_state.md R10, "exactly the following"), the
host's side of the input ports (R18, R25, spec/60_exceptions.md R195), the parameter FONT_BASE (spec/00_scope.md R7),
the reasons a step can stop, and the state after reset (R24). -/

namespace Sys2Proof.Machine

/-- The display buffer: element `y` is row `y`, top to bottom, and bit `x` of it is the cell in column `x`, left to right;
1 is on (R17). -/
abbrev Display := Vector (BitVec 64) 32

/-- Memory as (address, byte) pairs in one canonical form (`Memory.wf` of Machine/Memory.lean). -/
abbrev Memory := List Host.Cell

/-- The five faults of the core (spec/60_exceptions.md R180). None of them stops the model: a fault is taken, as R183
says, by setting the fault latch. -/
inductive FaultCause where
  /-- `PC > 0xFFE` at a fetch. -/
  | fetchRange
  /-- A data access reaches past 0xFFF. -/
  | dataRange
  /-- `CALL` with `SP = 16`. -/
  | stackOverflow
  /-- `RET` with `SP = 0`. -/
  | stackUnderflow
  /-- `SKP` or `SKNP` with `V[x] > 15`. -/
  | keyIndexRange
  deriving DecidableEq, Repr

/-- The fault latch (R19). -/
structure FaultLatch where
  /-- `FV`: a fault has been raised since reset; the core is halted. -/
  fv : Bool
  /-- `FC`: the cause code (R181). -/
  fc : BitVec 3
  /-- `FI`: the information word (R181). -/
  fi : Word
  deriving DecidableEq, Repr

/-- The latch with no fault in it. -/
def FaultLatch.clear : FaultLatch := ⟨false, 0, 0⟩

/-- THE MODEL'S OWN: the host's side of the input ports (log entries 2, 3 and 10). `keys` and the byte of a draw are what
the spec calls the key lines and the random input; the rest is how a deterministic step takes them from outside, and
whether the load port still takes an image. -/
structure Ports where
  /-- `key[15:0]`: the level on the 16 key lines, bit `k` for `KEY[k]`, which the next cycle samples (R18, R191). -/
  keys : BitVec 16
  /-- The levels the host has lined up for the cycles after the next one, first to come first. -/
  keyPlan : List (BitVec 16)
  /-- How many cycles have sampled the key lines: the argument of the free value `Config.keyDrive`. -/
  keyTurn : Nat
  /-- The bytes the host has lined up on the random port, first to come first (R121). -/
  randPlan : List Byte
  /-- How many bytes have been drawn: the argument of the free value `Config.randByte`. -/
  randTurn : Nat
  /-- The load port takes an image: no load has been made and no cycle has begun since reset (spec/20_memory.md R42,
  spec/60_exceptions.md R195). -/
  loadOpen : Bool
  deriving DecidableEq, Repr

/-- The state of the machine: the parameter FONT_BASE, every item of R10, and the host's side of the input ports. -/
structure State where
  /-- `FONT_BASE`, the parameter the machine was built with (R7, spec/20_memory.md R32): nothing ever writes it. -/
  fontBase : FontBase
  /-- `V[0]` to `V[15]` (R11); `V[15]` is the flag register VF (R12). -/
  v : Vector Byte 16
  /-- `I`, the index register (R13). -/
  idx : Word
  /-- `PC`, the program counter (R14). -/
  pc : Word
  /-- `STACK[0]` to `STACK[15]` (R15). -/
  stack : Vector Word 16
  /-- `SP`, the number of return addresses held, 0 to 16 (R15). -/
  sp : Fin 17
  /-- `DT`, the delay timer (R16). -/
  dt : Byte
  /-- `ST`, the sound timer (R16). -/
  st : Byte
  /-- `DISP[x, y]` (R17). -/
  disp : Display
  /-- `MEM[a]` (spec/20_memory.md R30). -/
  mem : Memory
  /-- `FV`, `FC`, `FI` (R19). -/
  fault : FaultLatch
  /-- The input ports. -/
  ports : Ports
  deriving DecidableEq, Repr

/-- Reasons a step stops with a fault. There are NONE: the spec describes what each of its faults does (R183), every one
is taken as a next state with the latch set, and a step of a halted core is a next state too (R184). The spec's own
faults are `FaultCause`. Safe: no step of the model stops where the hardware goes on. -/
inductive Fault where
  deriving DecidableEq, Repr

/-- Reasons a step is refused. -/
inductive Refusal where
  /-- Raised by an arm of `exec` whose instruction has no meaning yet; no arm raises it. Safe: it would stop the model
  where the hardware goes on. -/
  | notModelled (mnemonic : String)
  deriving DecidableEq, Repr

/-- What executing one instruction, or one cycle, answers. -/
abbrev Result := Host.Outcome State Fault Refusal

/-- The input ports at reset: the key lines are 0 "until the host drives them" (R24); nothing is lined up and nothing has
been drawn (log entries 2 and 3); the load port takes an image (R195; log entry 10). -/
def Ports.reset : Ports where
  keys := 0
  keyPlan := []
  keyTurn := 0
  randPlan := []
  randTurn := 0
  loadOpen := true

/-- The state right after reset of the machine with the given FONT_BASE, every value as R24 gives it. Memory lists
nothing: an unlisted address reads as its reset content (Machine/Memory.lean). -/
def State.resetAt (base : FontBase) : State where
  fontBase := base
  v := Vector.replicate 16 0
  idx := 0
  pc := 0x200
  stack := Vector.replicate 16 0
  sp := 0
  dt := 0
  st := 0
  disp := Vector.replicate 32 0
  mem := []
  fault := FaultLatch.clear
  ports := Ports.reset

/-- The state right after reset at the default FONT_BASE (log entry 4). -/
def State.reset : State := State.resetAt Config.defaultFontBase

end Sys2Proof.Machine
end

