-- ==== Sys2Proof/Machine/Memory.lean ====
section
/-! DEFINITION. Machine/Memory.lean: the one memory of the core (spec/20_memory.md): the font table (R32, R33), what an address
reads as after reset (R24, R31), reading and writing bytes with the canonical form kept, and the whole-range check of a
data access (R35). What an unlisted address reads as depends on FONT_BASE, so every function takes it as an argument; the
operations of a state (Machine/Ops.lean) give it the state's. -/

namespace Sys2Proof.Machine

/-! ### The font -/

/-- The glyphs of the digits 0 to 7 (R33; log entry 5). -/
def fontGlyphsLow : List Byte :=
  [0xF0, 0x90, 0x90, 0x90, 0xF0,
   0x20, 0x60, 0x20, 0x20, 0x70,
   0xF0, 0x10, 0xF0, 0x80, 0xF0,
   0xF0, 0x10, 0xF0, 0x10, 0xF0,
   0x90, 0x90, 0xF0, 0x10, 0x10,
   0xF0, 0x80, 0xF0, 0x10, 0xF0,
   0xF0, 0x80, 0xF0, 0x90, 0xF0,
   0xF0, 0x10, 0x20, 0x40, 0x40]

/-- The glyphs of the digits 8 to F (R33; log entry 5). -/
def fontGlyphsHigh : List Byte :=
  [0xF0, 0x90, 0xF0, 0x90, 0xF0,
   0xF0, 0x90, 0xF0, 0x10, 0xF0,
   0xF0, 0x90, 0xF0, 0x90, 0x90,
   0xE0, 0x90, 0xE0, 0x90, 0xE0,
   0xF0, 0x80, 0x80, 0x80, 0xF0,
   0xE0, 0x90, 0x90, 0x90, 0xE0,
   0xF0, 0x80, 0xF0, 0x80, 0xF0,
   0xF0, 0x80, 0xF0, 0x80, 0x80]

/-- The font table: "80 constant bytes (16 glyphs × 5 bytes)" (R32). -/
def fontTable : List Byte := fontGlyphsLow ++ fontGlyphsHigh

/-- The address of glyph `d` for a given FONT_BASE: "one of sixteen fixed-offset glyphs", 5 bytes each (R32, R161). -/
def glyphAddr (base : FontBase) (d : Nibble) : Word := BitVec.ofNat 16 (base.val + 5 * d.toNat)

/-- What address `a` holds after reset, for a given FONT_BASE: the font table in its place, 0 everywhere else (R24). An
address that is not listed in a memory reads as this. -/
def resetByte (base : FontBase) (a : Nat) : Byte := if base.val ≤ a then fontTable.getD (a - base.val) 0 else 0

/-! ### One byte -/

/-- `MEM[a]` (R39: the most recent write, or the reset value). -/
def Memory.read (base : FontBase) : Memory → Nat → Byte
  | [], a => resetByte base a
  | c :: m, a => if c.1 = a then c.2 else Memory.read base m a

/-- Puts a byte in front of cells at higher addresses, unless the address reads as that byte anyway. -/
def Memory.put (base : FontBase) (m : Memory) (a : Nat) (b : Byte) : Memory :=
  if b = resetByte base a then m else (a, b) :: m

/-- `MEM[a] <- b`, keeping the cells in order. -/
def Memory.write (base : FontBase) : Memory → Nat → Byte → Memory
  | [], a, b => Memory.put base [] a b
  | c :: m, a, b =>
    if a < c.1 then Memory.put base (c :: m) a b
    else if a = c.1 then Memory.put base m a b
    else c :: Memory.write base m a b

/-- The cells stand at rising addresses from `lo` on, inside the 4096 bytes of R30, none equal to what its address reads
as when it is not listed. -/
def Memory.wfFrom (base : FontBase) : Nat → Memory → Bool
  | _, [] => true
  | lo, c :: m =>
    decide (lo ≤ c.1) && decide (c.1 < 4096) && decide (c.2 ≠ resetByte base c.1) && Memory.wfFrom base (c.1 + 1) m

/-- The canonical form of a memory. -/
def Memory.wf (base : FontBase) (m : Memory) : Bool := Memory.wfFrom base 0 m

/-! ### Several bytes, in increasing address order (R34, R39) -/

/-- The `n` bytes from address `a` on. -/
def Memory.readList (base : FontBase) (m : Memory) : Nat → Nat → List Byte
  | _, 0 => []
  | a, n + 1 => m.read base a :: Memory.readList base m (a + 1) n

/-- Writes the bytes to `a`, `a + 1`, and so on. -/
def Memory.writeList (base : FontBase) : Memory → Nat → List Byte → Memory
  | m, _, [] => m
  | m, a, b :: bs => Memory.writeList base (m.write base a b) (a + 1) bs

/-! ### The data range check (R35) -/

/-- An access of `n` bytes at `addr` stays in memory: with `n = 0` nothing is checked; otherwise the last address, an exact
integer, is at most 0xFFF. -/
def accessInRange (addr : Word) (n : Nat) : Bool := decide (n = 0 ∨ addr.toNat + n - 1 ≤ 0xFFF)

/-- The information word of `DataRange`: `max(addr, 0x1000)`, "the lowest invalid address the access would touch". -/
def dataRangeInfo (addr : Word) : Word := if addr.toNat ≤ 0x1000 then 0x1000 else addr

end Sys2Proof.Machine
end

