-- ==== Sys2Proof/Machine/Ops.lean ====
section
/-! DEFINITION. Machine/Ops.lean: the named operations over the state: registers, the fault entry (spec/60_exceptions.md R183),
memory accesses with their check (spec/20_memory.md R34 to R36), the call stack (spec/10_state.md R15), the input
ports, the display cells, and the parts of a cycle (R20) around the execution of an instruction. -/

namespace Sys2Proof.Machine

/-! ### Registers -/

/-- `V[x]` (R11). -/
def State.reg (s : State) (x : RegIdx) : Byte := s.v[x]

/-- `V[x] <- b` (R11). -/
def State.setReg (s : State) (x : RegIdx) (b : Byte) : State := { s with v := s.v.set x b }

/-- The flag is written first and the destination second, both from operands already read (spec/42_arithmetic.md R100,
phases 2 and 3); when `x` is 15 the result is what remains in VF. -/
def State.setFlagThenReg (s : State) (flag : Byte) (x : RegIdx) (result : Byte) : State :=
  (s.setReg vf flag).setReg x result

/-- The registers `V[0]` to `V[x]`, the source of a block store (R164). -/
def State.regBlock (s : State) (x : RegIdx) : List Byte := s.v.toList.take (x.val + 1)

/-- `V[j] <- bs[j]` for every `j` that `bs` has; the registers above are unchanged (R165). -/
def State.setRegBlock (s : State) (bs : List Byte) : State :=
  { s with v := Vector.ofFn fun j : Fin 16 => bs.getD j.val (s.reg j) }

/-! ### Taking a fault (R181, R183) -/

/-- `code(F)` of R181. -/
def FaultCause.code : FaultCause → BitVec 3
  | .fetchRange => 1
  | .dataRange => 2
  | .stackOverflow => 3
  | .stackUnderflow => 4
  | .keyIndexRange => 5

/-- `FV <- 1; FC <- code(F); FI <- info`, on the state the cycle began with: everything else is as it was. -/
def State.latchFault (s : State) (c : FaultCause) (info : Word) : State :=
  { s with fault := ⟨true, c.code, info⟩ }

/-- `raise F(info)` in the execute step. The one change the cycle has made by then is the fetch advance of `PC`, since
every check comes before an instruction writes anything (R182); it is discarded and the latch is set. -/
def raise (c : FaultCause) (info : Word) (s : State) : Result :=
  .next (State.latchFault { s with pc := s.pc - 2 } c info)

/-! ### Memory accesses -/

/-- `MEM[a]` (spec/20_memory.md R39), in the memory of a machine with this state's FONT_BASE. -/
def State.byte (s : State) (a : Nat) : Byte := s.mem.read s.fontBase a

/-- The `n` bytes from address `a` on. -/
def State.bytes (s : State) (a n : Nat) : List Byte := s.mem.readList s.fontBase a n

/-- The bytes written to `a`, `a + 1`, and so on, with no check. -/
def State.writeBytes (s : State) (a : Nat) (bs : List Byte) : State :=
  { s with mem := s.mem.writeList s.fontBase a bs }

/-- The state's memory is in canonical form. -/
def State.memWf (s : State) : Bool := s.mem.wf s.fontBase

/-- `MemRead(addr, n)`; `none` where it raises `DataRange` (R35). -/
def State.memRead (s : State) (addr : Word) (n : Nat) : Option (List Byte) :=
  if accessInRange addr n then some (s.bytes addr.toNat n) else none

/-- `MemWrite(addr, n, v)` with `n` the length of `v`; `none` where it raises `DataRange`, and then no byte is written
(R35). -/
def State.memWrite (s : State) (addr : Word) (bs : List Byte) : Option State :=
  if accessInRange addr bs.length then some (s.writeBytes addr.toNat bs) else none

/-- The execute step ends with `DataRange(max(I, 0x1000))` (R181). -/
def raiseDataRange (s : State) : Result := raise .dataRange (dataRangeInfo s.idx) s

/-! ### The call stack (R15) -/

/-- Push: `STACK[SP] <- value; SP <- SP + 1`; `none` when `SP = 16`. -/
def State.push (s : State) (value : Word) : Option State :=
  if h : s.sp.val < 16 then
    some { s with stack := s.stack.set s.sp.val value h, sp := ⟨s.sp.val + 1, Nat.succ_lt_succ h⟩ }
  else none

/-- Pop: `SP <- SP - 1; value <- STACK[SP]`; the entry keeps its value; `none` when `SP = 0`. -/
def State.pop (s : State) : Option (Word × State) :=
  match s.sp with
  | ⟨0, _⟩ => none
  | ⟨n + 1, h⟩ =>
    some (s.stack[n]'(Nat.lt_of_succ_lt_succ h), { s with sp := ⟨n, Nat.lt_of_succ_lt h⟩ })

/-! ### The input ports -/

/-- `KEY[k]` as sampled in this cycle (R18, R140). -/
def State.key (s : State) (k : Nat) : Bool := s.ports.keys.getLsbD k

/-- The least pressed key, "in increasing index order" (spec/46_keypad.md R143). -/
def lowestKey (keys : BitVec 16) : Option (Fin 16) := (List.finRange 16).find? fun k => keys.getLsbD k.val

/-- `rand()`: the byte on the random port in this cycle (spec/44_random.md R121): the next one the host has lined up, or a
free value. -/
def State.randInput (s : State) : Byte :=
  match s.ports.randPlan with
  | [] => Config.randByte s.ports.randTurn
  | b :: _ => b

/-- "One byte is consumed per executed `RND`" (R121). -/
def State.consumeRand (s : State) : State :=
  { s with ports := { s.ports with randPlan := s.ports.randPlan.tail, randTurn := s.ports.randTurn + 1 } }

/-- The host's move between two cycles: the key lines take the next level it has lined up, or a free one (R6, R190). -/
def State.hostTurn (s : State) : State :=
  { s with
    ports :=
      { s.ports with
        keys := s.ports.keyPlan.headD (Config.keyDrive s.ports.keyTurn)
        keyPlan := s.ports.keyPlan.tail
        keyTurn := s.ports.keyTurn + 1 } }

/-- The load port takes no further image until reset: "once, by an external loader, before the first cycle runs" (R42). -/
def State.closeLoad (s : State) : State := { s with ports := { s.ports with loadOpen := false } }

/-! ### Display cells (R17) -/

/-- `DISP[px, py]`; off outside the 64 x 32 cells. -/
def Display.cell (d : Display) (px py : Nat) : Bool :=
  if h : py < 32 then d[py].getLsbD px else false

/-- `DISP[px, py] <- DISP[px, py] ^ 1`; nothing outside the cells. -/
def Display.toggle (d : Display) (px py : Nat) : Display :=
  if h : py < 32 then d.set py (d[py] ^^^ BitVec.twoPow 64 px) else d

/-- Every cell off. -/
def Display.allOff : Display := Vector.replicate 32 0

/-! ### The parts of a cycle around the instruction (R20) -/

/-- `Fetch(PC)`: the word at `PC`, high byte first; `none` where it raises `FetchRange` (R36). -/
def State.fetch (s : State) : Option Word :=
  if s.pc.toNat ≤ 0xFFE then some (wordOfBytes (s.byte s.pc.toNat) (s.byte (s.pc.toNat + 1))) else none

/-- Step 3: `PC <- PC + 2` (R20). -/
def State.advance (s : State) : State := { s with pc := s.pc + 2 }

/-- A timer "decremented toward zero ...; never decremented below zero" (spec/47_timers.md R154). -/
def tickTimer (t : Byte) : Byte := if t = 0 then 0 else t - 1

/-- Step 6: the timer tick (R154). -/
def State.tick (s : State) : State := { s with dt := tickTimer s.dt, st := tickTimer s.st }

/-- The end of a cycle: a fault ends it with no tick (R183); otherwise the timers tick and the host moves. Either way a
cycle has run, and the host may load no more (R42). -/
def endCycle : Result → Result
  | .next t => .next (if t.fault.fv then t else t.tick.hostTurn).closeLoad
  | .fault f => .fault f
  | .refused r => .refused r

/-- One cycle, for a given meaning `ex` of the instructions: nothing when the core is halted (step 0, R184), `FetchRange`
with no change of the core but the latch when the fetch fails (step 2), and else advance, decode, execute; then the
cycle's end. -/
def cycle (ex : Instr → State → Result) (s : State) : Result :=
  if s.fault.fv then .next s
  else
    match s.fetch with
    | none => endCycle (.next (s.latchFault .fetchRange s.pc))
    | some w => endCycle (ex (decode w) s.advance)

end Sys2Proof.Machine
end

