-- ==== Sys2Proof/Machine/Flags.lean ====
section
/-! DEFINITION. Machine/Flags.lean: the values the six flag-writing instructions write to VF (spec/10_state.md R12), each a
function of operands already read (spec/42_arithmetic.md R100). VF is a whole byte; a flag is 0 or 1. -/

namespace Sys2Proof.Machine

/-- A flag as the byte written to VF. -/
def flagByte (f : Bool) : Byte := if f then 1 else 0

/-- `ADD Vx, Vy`: 1 if the exact sum exceeds 255 (R102). -/
def carryFlag (a b : Byte) : Byte := flagByte (decide (a.toNat + b.toNat > 255))

/-- `SUB` and `SUBN`: 1 if the minuend is strictly greater than the subtrahend (R103, R104). -/
def noBorrowFlag (minuend subtrahend : Byte) : Byte := flagByte (decide (minuend.toNat > subtrahend.toNat))

/-- `SHR`: the bit shifted out, `a[0]` (spec/43_logic_shift.md R113). -/
def lowBitFlag (a : Byte) : Byte := flagByte (a.getLsbD 0)

/-- `SHL`: the bit shifted out, `a[7]` (R114). -/
def highBitFlag (a : Byte) : Byte := flagByte (a.getLsbD 7)

end Sys2Proof.Machine
end

