-- ==== Sys2Proof/Machine/Operands.lean ====
section
/-! DEFINITION. Machine/Operands.lean: the operand forms of the instructions: the 12-bit address (spec/30_encoding.md R53), the
start coordinates and rows of a sprite (spec/45_display.md R125, R126), the key index (spec/46_keypad.md R141), the
glyph address (spec/48_index_memory.md R161) and the decimal digits of a byte (R163). Register operands are
`State.reg`; the one memory operand form is `I + j` (R162), which `State.memRead` and `State.memWrite` take from `I`. -/

namespace Sys2Proof.Machine

/-- `zext_16(nnn)`: a byte address, not scaled (R53). -/
def addrWord (nnn : Addr12) : Word := nnn.setWidth 16

/-- `nnn + V[0]`, an exact sum of at most 0x10FE, which 16 bits hold (spec/40_control_flow.md R78). -/
def addrPlusV0 (s : State) (nnn : Addr12) : Word := addrWord nnn + (s.reg 0).setWidth 16

/-- The start column, `V[x] mod 64` (R126). -/
def startColumn (s : State) (x : RegIdx) : Nat := (s.reg x).toNat % 64

/-- The start row, `V[y] mod 32` (R126). -/
def startRow (s : State) (y : RegIdx) : Nat := (s.reg y).toNat % 32

/-- The address of the glyph of the low nibble of `V[x]`, in a machine with this state's FONT_BASE (R161). -/
def glyphOperand (s : State) (x : RegIdx) : Word := glyphAddr s.fontBase ((s.reg x).extractLsb' 0 4)

/-- A byte widened to 16 bits, as an addend of `I` or an information word (R160, R181). -/
def wideByte (b : Byte) : Word := b.setWidth 16

/-- Hundreds, tens and ones, each one byte (R163). -/
def bcdDigits (b : Byte) : List Byte :=
  [BitVec.ofNat 8 (b.toNat / 100), BitVec.ofNat 8 (b.toNat / 10 % 10), BitVec.ofNat 8 (b.toNat % 10)]

/-- `if c: pc <- pc + 2`, the skip of one instruction slot (R74 to R77, R79). -/
def skipIf (c : Bool) (s : State) : State := if c then { s with pc := s.pc + 2 } else s

/-! ### The sprite engine (R126) -/

/-- One sprite pixel at column `px`, row `py`: a 0 bit changes nothing; past the right or bottom edge it is dropped (R127);
otherwise the cell is toggled, and it is a collision if the cell was on (R128). -/
def drawPixel (px py : Nat) (bit : Bool) (d : Display × Bool) : Display × Bool :=
  if bit && decide (px < 64) && decide (py < 32) then
    (d.1.toggle px py, d.2 || d.1.cell px py)
  else d

/-- The `k` leftmost pixels of a sprite row, left to right: bit `7 - c` of the row is at column offset `c` (R125). -/
def drawRow (x0 py : Nat) (row : Byte) : Nat → Display × Bool → Display × Bool
  | 0, d => d
  | k + 1, d => drawPixel (x0 + k) py (row.getLsbD (7 - k)) (drawRow x0 py row k d)

/-- The rows of a sprite, top to bottom, each of 8 pixels. -/
def drawRows (x0 : Nat) : Nat → List Byte → Display × Bool → Display × Bool
  | _, [], d => d
  | py, row :: rows, d => drawRows x0 (py + 1) rows (drawRow x0 py row 8 d)

/-- The display after a sprite drawn at `(x0, y0)`, and whether a cell that was on was turned off. The collision starts
false ("flag cleared at the start") and is never cleared again (R128). -/
def drawSprite (x0 y0 : Nat) (rows : List Byte) (d : Display) : Display × Bool := drawRows x0 y0 rows (d, false)

end Sys2Proof.Machine
end

