-- ==== Sys2Proof/Machine/Arith.lean ====
section
/-! DEFINITION. Machine/Arith.lean: 8-bit arithmetic (spec/42_arithmetic.md). The sum and the difference of bytes are modulo 256
(R105). -/

namespace Sys2Proof.Machine

/-- `ADD Vx, kk`: `V[x] <- (V[x] + kk) mod 256`; VF is not written (R101). -/
def execAddImm (x : RegIdx) (kk : Byte) (s : State) : Result := .next (s.setReg x (s.reg x + kk))

/-- `ADD Vx, Vy`: carry into VF, then the sum into `V[x]` (R102). -/
def execAddReg (x y : RegIdx) (s : State) : Result :=
  .next (s.setFlagThenReg (carryFlag (s.reg x) (s.reg y)) x (s.reg x + s.reg y))

/-- `SUB Vx, Vy`: `V[x] > V[y]` into VF, then the difference into `V[x]` (R103). -/
def execSubReg (x y : RegIdx) (s : State) : Result :=
  .next (s.setFlagThenReg (noBorrowFlag (s.reg x) (s.reg y)) x (s.reg x - s.reg y))

/-- `SUBN Vx, Vy`: `V[y] > V[x]` into VF, then `V[y] - V[x]` into `V[x]` (R104). -/
def execSubnReg (x y : RegIdx) (s : State) : Result :=
  .next (s.setFlagThenReg (noBorrowFlag (s.reg y) (s.reg x)) x (s.reg y - s.reg x))

end Sys2Proof.Machine
end

