-- ==== Sys2Proof/Machine/Control.lean ====
section
/-! DEFINITION. Machine/Control.lean: the control flow instructions (spec/40_control_flow.md). A meaning runs as step 5 of the
cycle (spec/10_state.md R20): `pc` is already past the instruction. -/

namespace Sys2Proof.Machine

/-- NOP: nothing (R70). -/
def execNop (s : State) : Result := .next s

/-- `JP nnn`: `pc <- nnn` (R71). -/
def execJp (nnn : Addr12) (s : State) : Result := .next { s with pc := addrWord nnn }

/-- `CALL nnn`: pushes the advanced `pc`, then jumps; `StackOverflow(16)` when the stack is full (R72). -/
def execCall (nnn : Addr12) (s : State) : Result :=
  match s.push s.pc with
  | none => raise .stackOverflow 16 s
  | some t => .next { t with pc := addrWord nnn }

/-- `RET`: pops into `pc`; `StackUnderflow(0)` when the stack is empty (R73). -/
def execRet (s : State) : Result :=
  match s.pop with
  | none => raise .stackUnderflow 0 s
  | some (target, t) => .next { t with pc := target }

/-- `SE Vx, kk`: skip if `V[x] = kk` (R74). -/
def execSeImm (x : RegIdx) (kk : Byte) (s : State) : Result := .next (skipIf (s.reg x == kk) s)

/-- `SNE Vx, kk`: skip if `V[x] != kk` (R75). -/
def execSneImm (x : RegIdx) (kk : Byte) (s : State) : Result := .next (skipIf (s.reg x != kk) s)

/-- `SE Vx, Vy`: skip if `V[x] = V[y]` (R76). -/
def execSeReg (x y : RegIdx) (s : State) : Result := .next (skipIf (s.reg x == s.reg y) s)

/-- `SNE Vx, Vy`: skip if `V[x] != V[y]` (R77). -/
def execSneReg (x y : RegIdx) (s : State) : Result := .next (skipIf (s.reg x != s.reg y) s)

/-- `JP V0, nnn`: `pc <- nnn + V[0]` (R78). -/
def execJpV0 (nnn : Addr12) (s : State) : Result := .next { s with pc := addrPlusV0 s nnn }

end Sys2Proof.Machine
end

