-- ==== Sys2Proof/Machine/IndexMem.lean ====
section
/-! DEFINITION. Machine/IndexMem.lean: the index register and memory instructions (spec/48_index_memory.md). None of them that
accesses memory changes `I` (R162). -/

namespace Sys2Proof.Machine

/-- `ADD I, Vx`: `I <- (I + V[x]) mod 65536`; VF is not written (R160). -/
def execAddI (x : RegIdx) (s : State) : Result := .next { s with idx := s.idx + wideByte (s.reg x) }

/-- `LD F, Vx`: `I <- FONT_BASE + 5 * d` with `d` the low nibble of `V[x]` (R161). -/
def execLdF (x : RegIdx) (s : State) : Result := .next { s with idx := glyphOperand s x }

/-- `LD B, Vx`: the three digits of `V[x]` to `MEM[I]`, `MEM[I + 1]`, `MEM[I + 2]` (R163). -/
def execLdB (x : RegIdx) (s : State) : Result :=
  match s.memWrite s.idx (bcdDigits (s.reg x)) with
  | none => raiseDataRange s
  | some t => .next t

/-- `LD [I], Vx`: `V[0]` to `V[x]` to memory from `I` on (R164). -/
def execStRegs (x : RegIdx) (s : State) : Result :=
  match s.memWrite s.idx (s.regBlock x) with
  | none => raiseDataRange s
  | some t => .next t

/-- `LD Vx, [I]`: `V[0]` to `V[x]` from memory from `I` on (R165). -/
def execLdRegs (x : RegIdx) (s : State) : Result :=
  match s.memRead s.idx (x.val + 1) with
  | none => raiseDataRange s
  | some bs => .next (s.setRegBlock bs)

end Sys2Proof.Machine
end

