-- ==== Sys2Proof/Machine/Keypad.lean ====
section
/-! DEFINITION. Machine/Keypad.lean: the keypad instructions (spec/46_keypad.md). -/

namespace Sys2Proof.Machine

/-- The execute step ends with `KeyIndexRange(V[x])` (R141, R142, R181). -/
def raiseKeyIndex (x : RegIdx) (s : State) : Result := raise .keyIndexRange (wideByte (s.reg x)) s

/-- `SKP Vx`: skip if key `V[x]` is pressed; `KeyIndexRange` when `V[x] > 15` (R141). -/
def execSkp (x : RegIdx) (s : State) : Result :=
  if (s.reg x).toNat > 15 then raiseKeyIndex x s else .next (skipIf (s.key (s.reg x).toNat) s)

/-- `SKNP Vx`: skip if key `V[x]` is not pressed; `KeyIndexRange` when `V[x] > 15` (R142). -/
def execSknp (x : RegIdx) (s : State) : Result :=
  if (s.reg x).toNat > 15 then raiseKeyIndex x s else .next (skipIf (!s.key (s.reg x).toNat) s)

/-- `LD Vx, K`: the least pressed key into `V[x]`; with no key pressed, `pc <- pc - 2`, so that the instruction repeats
(R143, R144). -/
def execLdVxK (x : RegIdx) (s : State) : Result :=
  match lowestKey s.ports.keys with
  | some k => .next (s.setReg x (BitVec.ofNat 8 k.val))
  | none => .next { s with pc := s.pc - 2 }

end Sys2Proof.Machine
end

