-- ==== Sys2Proof/Machine/LoadMove.lean ====
section
/-! DEFINITION. Machine/LoadMove.lean: immediate and register loads (spec/41_load_move.md). -/

namespace Sys2Proof.Machine

/-- `LD Vx, kk`: `V[x] <- kk` (R90). -/
def execLdImm (x : RegIdx) (kk : Byte) (s : State) : Result := .next (s.setReg x kk)

/-- `LD Vx, Vy`: `V[x] <- V[y]` (R91). -/
def execLdReg (x y : RegIdx) (s : State) : Result := .next (s.setReg x (s.reg y))

/-- `LD I, nnn`: `I <- zext_16(nnn)` (R92). -/
def execLdI (nnn : Addr12) (s : State) : Result := .next { s with idx := addrWord nnn }

end Sys2Proof.Machine
end

