-- ==== Sys2Proof/Machine/Logic.lean ====
section
/-! DEFINITION. Machine/Logic.lean: bitwise logic and shifts by one (spec/43_logic_shift.md). The logic instructions do not write
VF; the shifts shift `V[x]` itself and ignore `V[y]` (R115). -/

namespace Sys2Proof.Machine

/-- `OR Vx, Vy` (R110). -/
def execOrReg (x y : RegIdx) (s : State) : Result := .next (s.setReg x (s.reg x ||| s.reg y))

/-- `AND Vx, Vy` (R111). -/
def execAndReg (x y : RegIdx) (s : State) : Result := .next (s.setReg x (s.reg x &&& s.reg y))

/-- `XOR Vx, Vy` (R112). -/
def execXorReg (x y : RegIdx) (s : State) : Result := .next (s.setReg x (s.reg x ^^^ s.reg y))

/-- `SHR Vx`: the low bit into VF, then the register shifted right (R113). -/
def execShr (x : RegIdx) (s : State) : Result := .next (s.setFlagThenReg (lowBitFlag (s.reg x)) x (s.reg x >>> 1))

/-- `SHL Vx`: the high bit into VF, then the register shifted left (R114). -/
def execShl (x : RegIdx) (s : State) : Result := .next (s.setFlagThenReg (highBitFlag (s.reg x)) x (s.reg x <<< 1))

end Sys2Proof.Machine
end

