-- ==== Sys2Proof/Machine/Random.lean ====
section
/-! DEFINITION. Machine/Random.lean: the random instruction (spec/44_random.md). -/

namespace Sys2Proof.Machine

/-- `RND Vx, kk`: `V[x] <- rand() & kk`, consuming one byte of the random port (R120, R121). -/
def execRnd (x : RegIdx) (kk : Byte) (s : State) : Result := .next (s.consumeRand.setReg x (s.randInput &&& kk))

end Sys2Proof.Machine
end

