-- ==== Sys2Proof/Machine/Screen.lean ====
section
/-! DEFINITION. Machine/Screen.lean: the display instructions (spec/45_display.md). -/

namespace Sys2Proof.Machine

/-- `CLS`: every cell off (R129). -/
def execCls (s : State) : Result := .next { s with disp := Display.allOff }

/-- `DRW Vx, Vy, n`: the coordinates are read first, then `n` bytes at `I`, with `DataRange` before VF or the display is
touched; then the sprite is drawn and VF is the collision (R126). -/
def execDrw (x y : RegIdx) (n : Nibble) (s : State) : Result :=
  match s.memRead s.idx n.toNat with
  | none => raiseDataRange s
  | some rows =>
    let drawn := drawSprite (startColumn s x) (startRow s y) rows s.disp
    .next (State.setReg { s with disp := drawn.1 } vf (flagByte drawn.2))

end Sys2Proof.Machine
end

