-- ==== Sys2Proof/Machine/Timers.lean ====
section
/-! DEFINITION. Machine/Timers.lean: the timer instructions (spec/47_timers.md). The tick at the cycle's end is `State.tick`
(Machine/Ops.lean); a timer read or written here is the value before it (R150, R151). -/

namespace Sys2Proof.Machine

/-- `LD Vx, DT`: `V[x] <- DT` (R150). -/
def execLdVxDt (x : RegIdx) (s : State) : Result := .next (s.setReg x s.dt)

/-- `LD DT, Vx`: `DT <- V[x]` (R151). -/
def execLdDtVx (x : RegIdx) (s : State) : Result := .next { s with dt := s.reg x }

/-- `LD ST, Vx`: `ST <- V[x]` (R152). -/
def execLdStVx (x : RegIdx) (s : State) : Result := .next { s with st := s.reg x }

end Sys2Proof.Machine
end

