-- ==== Sys2Proof/Machine/HostPorts.lean ====
section
/-! DEFINITION. Machine/HostPorts.lean: what the host does between cycles and sees of the core (spec/60_exceptions.md R190): the
reset input, the program load, the key and random inputs, and the output ports. None of these is an instruction. -/

namespace Sys2Proof.Machine

/-! ### Inputs -/

/-- The reset input, "at any time between cycles, in any state": every item of R10 takes its value of R24 for the
machine's own FONT_BASE, the key lines are 0 until the host drives them (spec/70_reset_and_hazards.md R210), and the load
port takes an image again (R195). What the host has lined up, and how many levels and bytes it has already given, is the
host's and goes on. -/
def State.applyReset (s : State) : State :=
  { State.resetAt s.fontBase with ports := { s.ports with keys := 0, loadOpen := true } }

/-- The result of the program load (spec/20_memory.md R42, R43). -/
inductive LoadOutcome where
  /-- The image is in memory. -/
  | loaded (s : State)
  /-- The image is longer than 3584 bytes: "Fail at load time; do not partially load". No byte was written. -/
  | capacityExceeded (s : State)
  /-- A second load since reset, or a load after the first cycle: "this spec refuses it" (R42). There is no state after
  it. -/
  | refused
  deriving DecidableEq, Repr

/-- `Load(img, L)` of R43, where R42 allows it; whatever its result, it was the one load (R195; log entry 10). -/
def State.load (s : State) (img : List Byte) : LoadOutcome :=
  if s.ports.loadOpen then
    if imageFits img then .loaded (s.writeBytes 0x200 img).closeLoad else .capacityExceeded s.closeLoad
  else .refused

/-- The state after the load; none where it is refused. -/
def LoadOutcome.state : LoadOutcome → Option State
  | .loaded s => some s
  | .capacityExceeded s => some s
  | .refused => none

/-- The `load_error` output, "result of the load" (R190, R195); none where no load is made. -/
def LoadOutcome.loadError : LoadOutcome → Option Bool
  | .loaded _ => some false
  | .capacityExceeded _ => some true
  | .refused => none

/-- The launch state: the load applied, once, to the reset state of the machine with the given FONT_BASE (R42, R195,
spec/70_reset_and_hazards.md R213). -/
def launch (base : FontBase) (img : List Byte) : LoadOutcome := (State.resetAt base).load img

/-- The host changes the key lines between cycles (R191). -/
def State.driveKeys (s : State) (keys : BitVec 16) : State := { s with ports := { s.ports with keys := keys } }

/-- The host lines up key levels for the cycles after the next one and bytes on the random port: "so tests can supply
deterministic sequences" (R193). -/
def State.planInputs (s : State) (keys : List (BitVec 16)) (rands : List Byte) : State :=
  { s with ports := { s.ports with keyPlan := keys, randPlan := rands } }

/-! ### Outputs, read between cycles -/

/-- Bit `i` of `disp[2047:0]`; bit `64 * y + x` is `DISP[x, y]` (R192). -/
def State.dispPort (s : State) (i : Nat) : Bool := s.disp.cell (i % 64) (i / 64)

/-- `dt[7:0]` (R194). -/
def State.dtPort (s : State) : Byte := s.dt

/-- `st[7:0]` (R194). -/
def State.stPort (s : State) : Byte := s.st

/-- `fv`, `fc[2:0]`, `fi[15:0]` (R190). -/
def State.faultPort (s : State) : FaultLatch := s.fault

end Sys2Proof.Machine
end

