-- ==== Sys2Proof/Machine/Step.lean ====
section
/-! DEFINITION. Machine/Step.lean: one step of the machine is one cycle (spec/10_state.md R20), one assertion of the `step`
strobe (spec/00_scope.md R6); and how the host's opcode check places an instruction where the next fetch reads it. -/

namespace Sys2Proof.Machine

/-- One cycle, with the meanings of `exec`. -/
def step (s : State) : Host.Outcome State Fault Refusal := cycle exec s

/-- `s` with the instruction whose bits are `w` stored at `PC`, where the next cycle fetches; bits at and above `nbits` are 0.
It stands for the program load (R43) and changes memory only; where `PC` is no fetch address nothing is stored. -/
def State.withFetchWord (s : State) (nbits w : Nat) : State :=
  if s.pc.toNat ≤ 0xFFE then
    s.writeBytes s.pc.toNat (bytesOfWord (BitVec.ofNat 16 (w % 2 ^ nbits)))
  else s

end Sys2Proof.Machine
end

