-- ==== Sys2Proof/Safety.lean ====
section
/-! DEFINITION. Safety.lean: the words claims are stated in: a running and a halted core, the invariant of every run, the tables of
the spec that speak about all instructions at once (which condition faults, where `PC` goes, which state an instruction
may write), the closed form of a sprite, and the end of a run. Each table is written from the spec's own table and
not from the meanings. -/

namespace Sys2Proof.Machine

/-! ### Running and halted (spec/60_exceptions.md R184) -/

/-- The core is not halted: `FV = 0`. -/
def State.Running (s : State) : Prop := s.fault.fv = false

/-- The instruction the next cycle decodes, where it can be fetched (spec/20_memory.md R36). -/
def State.instrAt (s : State) : Option Instr := s.fetch.map decode

/-- Every word with the bits `pattern` under `mask` decodes to the instruction `f` gives for it (R62). -/
def DecodesAs (mask pattern : Word) (f : Word → Instr) : Prop := ∀ w : Word, w &&& mask = pattern → decode w = f w

/-! ### The invariant -/

/-- The latch holds what R181 says for its cause code, about a state that has not changed since the fault (R183, R184);
clear when no fault has been raised (R19). -/
def State.LatchOk (s : State) : Prop :=
  (s.fault.fv = false ∧ s.fault.fc = 0 ∧ s.fault.fi = 0) ∨
  (s.fault.fv = true ∧ s.fault.fc = 1 ∧ s.fault.fi = s.pc ∧ 0xFFF ≤ s.pc.toNat) ∨
  (s.fault.fv = true ∧ s.fault.fc = 2 ∧ s.fault.fi.toNat = max s.idx.toNat 0x1000) ∨
  (s.fault.fv = true ∧ s.fault.fc = 3 ∧ s.fault.fi = 16 ∧ s.sp.val = 16) ∨
  (s.fault.fv = true ∧ s.fault.fc = 4 ∧ s.fault.fi = 0 ∧ s.sp.val = 0) ∨
  (s.fault.fv = true ∧ s.fault.fc = 5 ∧ ∃ x : RegIdx, s.fault.fi.toNat = (s.reg x).toNat ∧ 15 < (s.reg x).toNat)

/-- What every step keeps: memory in canonical form; `PC` at most 0x10FE and every live stack entry at most 0x1000
(spec/10_state.md R22); the latch consistent (R19, R181); the load port closed in a halted core, in which a cycle has run
(spec/20_memory.md R42). -/
def State.Inv (s : State) : Prop :=
  s.memWf = true ∧ s.pc.toNat ≤ 0x10FE ∧
  (∀ j : Fin 16, j.val < s.sp.val → (s.stack.get j).toNat ≤ 0x1000) ∧ s.LatchOk ∧
  (s.fault.fv = true → s.ports.loadOpen = false)

/-! ### The fault table (R180, R181) -/

/-- A data access of `n` bytes at `I` reaches past 0xFFF. -/
def State.reachesPastEnd (s : State) (n : Nat) : Prop := 0 < n ∧ s.idx.toNat + n - 1 > 0xFFF

/-- The condition, code and information word of `DataRange` for an access of `n` bytes. -/
def State.dataFault (s : State) (n : Nat) (fc : BitVec 3) (fi : Nat) : Prop :=
  s.reachesPastEnd n ∧ fc = 2 ∧ fi = max s.idx.toNat 0x1000

/-- Executing the instruction raises the fault with code `fc` and information word `fi` (R180, R181). -/
def State.executeFaults (s : State) (fc : BitVec 3) (fi : Nat) : Instr → Prop
  | .drw _ _ n => s.dataFault n.toNat fc fi
  | .ldB _ => s.dataFault 3 fc fi
  | .stRegs x => s.dataFault (x.val + 1) fc fi
  | .ldRegs x => s.dataFault (x.val + 1) fc fi
  | .call _ => s.sp.val = 16 ∧ fc = 3 ∧ fi = 16
  | .ret => s.sp.val = 0 ∧ fc = 4 ∧ fi = 0
  | .skp x => (s.reg x).toNat > 15 ∧ fc = 5 ∧ fi = (s.reg x).toNat
  | .sknp x => (s.reg x).toNat > 15 ∧ fc = 5 ∧ fi = (s.reg x).toNat
  | .cls | .jp _ | .seImm _ _ | .sneImm _ _ | .seReg _ _ | .ldImm _ _ | .addImm _ _ | .ldReg _ _ | .orReg _ _
  | .andReg _ _ | .xorReg _ _ | .addReg _ _ | .subReg _ _ | .shr _ | .subnReg _ _ | .shl _ | .sneReg _ _ | .ldI _
  | .jpV0 _ | .rnd _ _ | .ldVxDt _ | .ldVxK _ | .ldDtVx _ | .ldStVx _ | .addI _ | .ldF _ | .nop => False

/-- A cycle that starts in `s` raises the fault with code `fc` and information word `fi`: at the fetch, or else, first and
only, at the execute step (R180, R181, R186). -/
def State.cycleFaults (s : State) (fc : BitVec 3) (fi : Nat) : Prop :=
  (s.pc.toNat > 0xFFE ∧ fc = 1 ∧ fi = s.pc.toNat) ∨ (∃ i, s.instrAt = some i ∧ s.executeFaults fc fi i)

/-! ### Where `PC` goes (spec/10_state.md R21) -/

/-- `pc0 + 4` if the condition holds, else `pc0 + 2`. -/
def pcAfterSkip (pc0 : Nat) (c : Prop) [Decidable c] : Nat := if c then pc0 + 4 else pc0 + 2

/-- `PC` at the end of a cycle that does not fault, for the instruction executed and the state the cycle began with. -/
def State.pcAfter (s : State) : Instr → Nat
  | .jp nnn => nnn.toNat
  | .call nnn => nnn.toNat
  | .ret => (s.stack.toList.getD (s.sp.val - 1) 0).toNat
  | .jpV0 nnn => nnn.toNat + (s.reg 0).toNat
  | .seImm x kk => pcAfterSkip s.pc.toNat (s.reg x = kk)
  | .sneImm x kk => pcAfterSkip s.pc.toNat (s.reg x ≠ kk)
  | .seReg x y => pcAfterSkip s.pc.toNat (s.reg x = s.reg y)
  | .sneReg x y => pcAfterSkip s.pc.toNat (s.reg x ≠ s.reg y)
  | .skp x => pcAfterSkip s.pc.toNat (s.ports.keys.getLsbD (s.reg x).toNat = true)
  | .sknp x => pcAfterSkip s.pc.toNat (s.ports.keys.getLsbD (s.reg x).toNat = false)
  | .ldVxK _ => if s.ports.keys = 0 then s.pc.toNat else s.pc.toNat + 2
  | .cls | .ldImm _ _ | .addImm _ _ | .ldReg _ _ | .orReg _ _ | .andReg _ _ | .xorReg _ _ | .addReg _ _ | .subReg _ _
  | .shr _ | .subnReg _ _ | .shl _ | .ldI _ | .rnd _ _ | .drw _ _ _ | .ldVxDt _ | .ldDtVx _ | .ldStVx _ | .addI _
  | .ldF _ | .ldB _ | .stRegs _ | .ldRegs _ | .nop => s.pc.toNat + 2

/-! ### What an instruction may write (the frame rule, spec/00_scope.md R8) -/

/-- The six instructions that write VF as a side effect (spec/10_state.md R12). -/
def writesFlag : Instr → Bool
  | .addReg _ _ | .subReg _ _ | .subnReg _ _ | .shr _ | .shl _ | .drw _ _ _ => true
  | _ => false

/-- General register `r` is a destination the instruction names: `x`, or one of `V[0]` to `V[x]` for a block load. -/
def writesReg (r : RegIdx) : Instr → Bool
  | .ldImm x _ | .addImm x _ | .ldReg x _ | .orReg x _ | .andReg x _ | .xorReg x _ | .addReg x _ | .subReg x _ | .shr x
  | .subnReg x _ | .shl x | .rnd x _ | .ldVxDt x | .ldVxK x => r == x
  | .ldRegs x => decide (r ≤ x)
  | _ => false

/-- `I` is written by `LD I, nnn`, `ADD I, Vx` and `LD F, Vx` (R13). -/
def writesIndex : Instr → Bool
  | .ldI _ | .addI _ | .ldF _ => true
  | _ => false

/-- Only `CALL` pushes and only `RET` pops (R15). -/
def writesStackPointer : Instr → Bool
  | .call _ | .ret => true
  | _ => false

/-- The display is "written only by `DRW` ... and `CLS`" (R17). -/
def writesDisplay : Instr → Bool
  | .drw _ _ _ | .cls => true
  | _ => false

/-- Memory is written by `LD B, Vx` and `LD [I], Vx` (spec/20_memory.md R34). -/
def writesMemory : Instr → Bool
  | .ldB _ | .stRegs _ => true
  | _ => false

/-- The key lines are read by `SKP`, `SKNP` and `LD Vx, K` (spec/60_exceptions.md R187). -/
def readsKeys : Instr → Bool
  | .skp _ | .sknp _ | .ldVxK _ => true
  | _ => false

/-- The random port is read by `RND` (spec/44_random.md R121). -/
def readsRandom : Instr → Bool
  | .rnd _ _ => true
  | _ => false

/-! ### The sprite in closed form (spec/45_display.md R125, R127) -/

/-- Cell `(px, py)` is under a 1 bit of the sprite with its corner at `(x0, y0)`: row `py - y0` of it exists, and bit
`7 - (px - x0)` of that row is 1. -/
def spriteCovers (x0 y0 : Nat) (rows : List Byte) (px py : Nat) : Bool :=
  decide (x0 ≤ px) && decide (px < x0 + 8) && decide (y0 ≤ py) && decide (py < y0 + rows.length) &&
    (rows.getD (py - y0) 0).getLsbD (7 - (px - x0))

/-- The bytes of the sprite a `DRW` with height `n` draws: `MEM[I]` to `MEM[I + n - 1]` (R126). -/
def State.spriteRows (s : State) (n : Nibble) : List Byte := (List.range n.toNat).map fun r => s.byte (s.idx.toNat + r)

/-! ### The end of a run (spec/70_reset_and_hazards.md R227; the definition is the spec's suggestion) -/

/-- `FV = 0`, and the word at `PC` is `1nnn` with `nnn = PC`. -/
def State.AtEndOfRun (s : State) : Prop := s.Running ∧ ∃ nnn : Addr12, s.instrAt = some (.jp nnn) ∧ nnn.toNat = s.pc.toNat

/-- FONT_BASE and the state of R10, without the host's side of the input ports. -/
def State.core (s : State) : State := { s with ports := Ports.reset }

end Sys2Proof.Machine
end

