-- ==== Sys2Proof/Certificates/Slice0/Obligations.lean ====
section
/-! DEFINITION. Certificates/Slice0/Obligations.lean: the statements for the provers. Each docstring names the rules of spec/ it
formalises. An instruction's statement is about `exec`, step 5 of the cycle, whose state has `pc` already advanced to
`pc0 + 2` (spec/10_state.md R20); `s.pc - 2` there is `pc0`. An equation `t = { s with f := t.f }` says that nothing but
the named fields changed: registers, `I`, `PC`, the stack, the timers, the display, every byte of memory, the fault latch
and the input ports are as before unless named. -/

open Sys2Proof Sys2Proof.Machine

/-! ### Encoding -/

/-- Decoding the two bytes of an encoded instruction gives it back and leaves what follows, for every instruction and every
value of its fields (spec/30_encoding.md R50, R62, R63). The byte order is the spec's decision D1, the word 0x0001 that
`encode` writes for NOP its decision D25. -/
def Obligations.DecodeEncodeAgree : Prop :=
  ∀ (i : Instr) (rest : List Byte), decodeBytes (bytesOfWord (encode i) ++ rest) = .instr i rest

/-- R62 (column "canonical") and R64: the words that encoding their own decoding gives back are exactly the canonical ones.
The column shows the `y` of 8xy6 and 8xyE free; the canonical assembler of R64 (the spec's decision D25) sets it to 0 when
`Vy` is omitted, and in the model `SHR` and `SHL` are canonical with `y = 0` only (log entry 6). For NOP the canonical word
is 0x0001 of R65, also D25. -/
def Obligations.CanonicalWordsReencode : Prop :=
  ∀ w : Word, canonicalWord w = true ↔ encode (decode w) = w

/-- R62, R59: a word matches the row of the instruction it decodes to and no other row, and no row when it is NOP. -/
def Obligations.DecoderFollowsOpcodeRows : Prop :=
  ∀ w : Word, (opcodeRows.filter fun r => r.accepts w).map (fun r => r.mnemonic) =
    if decode w = .nop then [] else [(decode w).mnemonic]

/-- R62: "The rows are disjoint". -/
def Obligations.OpcodeRowsDisjoint : Prop :=
  opcodeRows.length = 34 ∧ opcodeRows.Pairwise fun r q => r.disjoint q = true

/-- R60, R62: words written out from the spec's encodings, one or more of each of the 16 groups (R54; L2.1 of spec/95_test_vectors.md).
That ignored bits are ignored is the spec's decision D3. -/
def Obligations.SpecWordsDecode : Prop :=
  decode 0x00E0 = .cls ∧ decode 0x0000 = .cls ∧ decode 0x0ABE = .ret ∧ decode 0x0001 = .nop ∧
  decode 0x1ABC = .jp 0xABC ∧ decode 0x220A = .call 0x20A ∧ decode 0x3310 = .seImm 3 0x10 ∧
  decode 0x4A3B = .sneImm 10 0x3B ∧ decode 0x512F = .seReg 1 2 ∧ decode 0x6A3B = .ldImm 10 0x3B ∧
  decode 0x71FF = .addImm 1 0xFF ∧ decode 0x8125 = .subReg 1 2 ∧ decode 0x8128 = .nop ∧
  decode 0x9127 = .sneReg 1 2 ∧ decode 0xA300 = .ldI 0x300 ∧ decode 0xB123 = .jpV0 0x123 ∧
  decode 0xC30F = .rnd 3 0x0F ∧ decode 0xD015 = .drw 0 1 5 ∧
  decode 0xE10E = .skp 1 ∧ decode 0xE1A1 = .sknp 1 ∧ decode 0xE19F = .nop ∧ decode 0xF255 = .stRegs 2 ∧
  decode 0xFFFF = .nop

/-! ### The cycle -/

/-- R20, R36: in a core that is not halted, at any `PC` from 0 to 0xFFE, a step decodes the word whose high byte is at `PC`,
executes it on the state with `PC` advanced by 2, and, unless that raised a fault, decrements each nonzero timer (that a
faulting cycle does not tick is the spec's decision D18, that every other cycle does its D21, the byte order its D1); the
key lines then take the next level of the host (log entry 3: the host's turn is the model's). A cycle has then run, so the
load port is closed (R42, the spec's decision D23; log entry 10). -/
def Obligations.StepRunsDecodedInstruction : Prop :=
  ∀ (s t : State) (i : Instr), s.Running → s.pc.toNat ≤ 0xFFE →
    decode (BitVec.ofNat 16 (256 * (s.byte s.pc.toNat).toNat + (s.byte (s.pc.toNat + 1)).toNat)) = i →
    exec i { s with pc := s.pc + 2 } = .next t →
    step s = .next (State.closeLoad
      (if t.fault.fv = true then t
       else State.hostTurn
        { t with dt := if t.dt = 0 then 0 else t.dt - 1, st := if t.st = 0 then 0 else t.st - 1 }))

/-- R184: "While `FV = 1` a `step` does nothing". -/
def Obligations.HaltedStepChangesNothing : Prop :=
  ∀ s : State, s.fault.fv = true → step s = .next s

/-- R59, R180, R183: no instruction stops the model in any state: each answers a next state, a fault of the spec included. -/
def Obligations.EveryInstructionAnswers : Prop :=
  ∀ (i : Instr) (s : State), ∃ t, exec i s = .next t

/-- R180, R181, R183: a cycle raises a fault exactly under the conditions of the table, with its code and information word;
then the latch is set and nothing else of the core changes (that a cycle has run closes the host's load port, R42, log
entry 10); otherwise the latch is as it was. The latch and its codes are the spec's decision D18, the last three faults
its D14 and D16. -/
def Obligations.FaultsFollowTheTable : Prop :=
  ∀ s : State, s.Running →
    (∀ fc fi, s.cycleFaults fc fi →
      step s = .next (State.closeLoad { s with fault := ⟨true, fc, BitVec.ofNat 16 fi⟩ })) ∧
    ((∀ fc fi, ¬s.cycleFaults fc fi) → ∃ t, step s = .next t ∧ t.fault = s.fault)

/-- Every step keeps the invariant: memory in canonical form (the model's representation, log entry 8), `PC` at most 0x10FE
and live stack entries at most 0x1000 (R22, which the spec marks as derived), the fault latch consistent (R19, R181), and
in a halted core the load port closed (R42, log entry 10). -/
def Obligations.StepKeepsInvariant : Prop :=
  ∀ s t : State, s.Inv → step s = .next t → t.Inv

/-- The reset state (R24) meets the invariant that `StepKeepsInvariant` is about, for every FONT_BASE. -/
def Obligations.ResetMeetsInvariant : Prop := State.reset.Inv ∧ ∀ base : FontBase, (State.resetAt base).Inv

/-- R43, R213: for every FONT_BASE and every image the load from reset is taken and gives a launch state, which meets the
invariant, also when it signals `CapacityExceeded`. -/
def Obligations.LaunchMeetsInvariant : Prop :=
  ∀ (base : FontBase) (img : List Byte), ∃ t, (launch base img).state = some t ∧ t.Inv

/-- R21: where each instruction leaves `PC`, for every instruction; a `CALL` has pushed `pc0 + 2`. -/
def Obligations.PcFollowsTheTable : Prop :=
  ∀ (s t : State) (i : Instr), s.Running → s.instrAt = some i → step s = .next t →
    (t.fault.fv = false → t.pc.toNat = s.pcAfter i) ∧ (t.fault.fv = true → t.pc = s.pc) ∧
    ∀ (nnn : Addr12) (j : Fin 16), i = .call nnn → t.fault.fv = false → j.val = s.sp.val → t.stack.get j = s.pc + 2

/-- R154: the tick: every cycle that does not fault leaves each timer one less than the instruction left it, never below 0;
a faulting cycle does not tick. That NOPs, skips and repeats of a key-wait tick is the spec's decision D21. -/
def Obligations.TimersTickOncePerCycle : Prop :=
  ∀ (s t : State) (i : Instr), s.Running → s.instrAt = some i → step s = .next t →
    (t.fault.fv = false →
      t.dt.toNat = (match i with | .ldDtVx x => s.reg x | _ => s.dt).toNat - 1 ∧
      t.st.toNat = (match i with | .ldStVx x => s.reg x | _ => s.st).toNat - 1) ∧
    (t.fault.fv = true → t.dt = s.dt ∧ t.st = s.st)

/-- The frame rule of R8, the spec's decision D30, with the writers R12, R13, R15, R16, R17, R34 and R121 name: which
instructions may change each piece of state. The key lines and the load port are the host's and FONT_BASE is fixed: no
instruction changes them. -/
def Obligations.OnlyNamedInstructionsWrite : Prop :=
  ∀ (i : Instr) (s t : State), exec i s = .next t →
    (∀ r : RegIdx, writesReg r i = false → ¬(r = 15 ∧ writesFlag i = true) → t.reg r = s.reg r) ∧
    (writesIndex i = false → t.idx = s.idx) ∧
    (writesStackPointer i = false → t.sp = s.sp ∧ t.stack = s.stack) ∧
    ((∀ x, i ≠ .ldDtVx x) → t.dt = s.dt) ∧
    ((∀ x, i ≠ .ldStVx x) → t.st = s.st) ∧
    (writesDisplay i = false → t.disp = s.disp) ∧
    (writesMemory i = false → t.mem = s.mem) ∧
    (readsRandom i = false → t.ports = s.ports) ∧
    t.ports.keys = s.ports.keys ∧ t.ports.loadOpen = s.ports.loadOpen ∧ t.fontBase = s.fontBase

/-- R16, R153: "no instruction reads it": whatever `ST` holds, a step does the same to every other piece of state. -/
def Obligations.SoundTimerIsNeverRead : Prop :=
  ∀ (s : State) (a : Byte), ∃ (t : State) (b : Byte),
    step s = .next t ∧ step { s with st := a } = .next { t with st := b }

/-- R187, R121, R10: only `SKP`, `SKNP` and `LD Vx, K` depend on the key lines, and only `RND` on the random port. -/
def Obligations.InputsReachOnlyTheirInstructions : Prop :=
  ∀ (i : Instr) (s : State),
    (readsKeys i = false → ∀ k : BitVec 16, ∃ t, exec i s = .next t ∧
      exec i { s with ports := { s.ports with keys := k } } = .next { t with ports := { t.ports with keys := k } }) ∧
    (readsRandom i = false → ∀ (p : List Byte) (n : Nat), ∃ t, exec i s = .next t ∧
      exec i { s with ports := { s.ports with randPlan := p, randTurn := n } } =
        .next { t with ports := { t.ports with randPlan := p, randTurn := n } })

/-- R23, R20: two states of machines with one FONT_BASE, equal in every item of R10, with the same key lines and the same
random byte, behave identically: one step leaves them equal in every item of R10. -/
def Obligations.EqualStatesBehaveIdentically : Prop :=
  ∀ s u : State, s.core = u.core → s.ports.keys = u.ports.keys → s.randInput = u.randInput →
    ∃ t t' : State, step s = .next t ∧ step u = .next t' ∧ t.core = t'.core

/-! ### Several cycles -/

/-- R72, R73 (the source's call/return property): a `CALL` with room on the stack, then a `RET` fetched at its target, leaves
`PC` just after the `CALL` and `SP` as it was. -/
def Obligations.CallThenReturnComesBack : Prop :=
  ∀ (s : State) (nnn : Addr12), s.Running → s.instrAt = some (.call nnn) → s.sp.val < 16 →
    ∃ t, step s = .next t ∧ t.pc.toNat = nnn.toNat ∧
      (t.instrAt = some .ret → ∃ u, step t = .next u ∧ u.pc = s.pc + 2 ∧ u.sp = s.sp ∧ u.fault = s.fault)

/-- R166 (which the spec marks as derived from R164 and R165): a block store, then a block load with `I` and the stored bytes
unchanged, restores `V[0..k]`, whatever the registers held in between. -/
def Obligations.BlockStoreLoadRoundTrip : Prop :=
  ∀ (s u : State) (k : RegIdx), s.memWf = true → s.idx.toNat + k.val ≤ 0xFFF → u.idx = s.idx →
    ∃ t, exec (.stRegs k) s = .next t ∧
      ((∀ j, j ≤ k.val → u.byte (s.idx.toNat + j) = t.byte (s.idx.toNat + j)) →
        ∃ u', exec (.ldRegs k) u = .next u' ∧ ∀ r : RegIdx, r ≤ k → u'.reg r = s.reg r)

/-- R41 (the spec's decision D29): a block store over the next instruction's bytes is what the very next cycle fetches. -/
def Obligations.StoreIsSeenByTheNextFetch : Prop :=
  ∀ (s : State) (k j : RegIdx) (h : j.val + 1 < 16), s.memWf = true → s.Running → s.instrAt = some (.stRegs k) →
    s.idx.toNat + k.val ≤ 0xFFF → j.val + 1 ≤ k.val → s.pc.toNat + 2 = s.idx.toNat + j.val →
    ∃ t, step s = .next t ∧ t.pc = s.pc + 2 ∧
      t.fetch = some (BitVec.ofNat 16 (256 * (s.reg j).toNat + (s.reg ⟨j.val + 1, h⟩).toNat))

/-- R144 (the source's key-wait property): with no key pressed for `n + 1` cycles the program counter does not pass the wait,
no register changes and the timers count down; in the next cycle, with key `j` the lowest one pressed, `V[x]` is `j` and
the counter advances. The key levels are the ones the host has lined up in the model's input port (log entry 3); that
the repeats tick is the spec's decision D21. -/
def Obligations.KeyWaitEndsWithTheFirstKey : Prop :=
  ∀ (s : State) (x j : RegIdx) (n : Nat) (k : BitVec 16) (rest : List (BitVec 16)),
    s.Running → s.instrAt = some (.ldVxK x) → s.ports.keys = 0 →
    s.ports.keyPlan = List.replicate n 0 ++ k :: rest →
    k.getLsbD j.val = true → (∀ i : RegIdx, i < j → k.getLsbD i.val = false) →
    (∀ m, m ≤ n + 1 → ∃ t : State, Sys2Proof.core.run m s = .next t ∧ t.pc = s.pc ∧ t.v = s.v ∧ t.mem = s.mem ∧
      t.dt.toNat = s.dt.toNat - m ∧ t.st.toNat = s.st.toNat - m) ∧
    ∃ t : State, Sys2Proof.core.run (n + 2) s = .next t ∧ t.pc = s.pc + 2 ∧ (t.reg x).toNat = j.val ∧
      (∀ r : RegIdx, r ≠ x → t.reg r = s.reg r) ∧ t.dt.toNat = s.dt.toNat - (n + 2)

/-- R221, and R213 which the spec marks as derived: a core that runs into zeroed memory executes `CLS` at each word up to 0xFFE
and then faults with `FetchRange(0x1000)`; from reset with no image that is 1792 cycles and then the fault, whatever
FONT_BASE. The code 1 of `FetchRange` in the latch is R181, the spec's decision D18. -/
def Obligations.ZeroedMemoryEndsInFetchRange : Prop :=
  (∀ (s : State) (n : Nat), s.Running → s.pc.toNat + 2 * n = 0x1000 →
    (∀ a, s.pc.toNat ≤ a → a < 0x1000 → s.byte a = 0) →
    (∃ t : State, Sys2Proof.core.run n s = .next t ∧ t.pc = 0x1000 ∧ t.Running ∧ t.v = s.v ∧
      (0 < n → ∀ px py, t.disp.cell px py = false)) ∧
    ∃ t : State, Sys2Proof.core.run (n + 1) s = .next t ∧ t.pc = 0x1000 ∧ t.fault = ⟨true, 1, 0x1000⟩) ∧
  ∀ base : FontBase, ∃ t : State,
    Sys2Proof.core.run 1793 (State.resetAt base) = .next t ∧ t.pc = 0x1000 ∧ t.fault = ⟨true, 1, 0x1000⟩

/-- R227 (its definition of an end of run is the spec's decision D26), R71: at a jump to itself the state changes no more,
except that the timers run down to 0 (and the host moves). -/
def Obligations.JumpToSelfIsTheEndOfRun : Prop :=
  ∀ (s : State) (n : Nat), s.AtEndOfRun →
    ∃ t : State, Sys2Proof.core.run n s = .next t ∧ t.AtEndOfRun ∧
      t = { s with dt := t.dt, st := t.st, ports := t.ports } ∧
      t.dt.toNat = s.dt.toNat - n ∧ t.st.toNat = s.st.toNat - n

/-- R126, R128, for coordinate registers other than VF, which the first draw would change: drawing the same sprite twice at the
same place restores the display; if a 1 bit of it is on the screen, at
least one of the two draws reports a collision. This is NOT R126's sentence, which says the second draw does: its own
pseudocode gives that only where some covered cell was off before the first, and the model follows the pseudocode (log
entry 9). -/
def Obligations.DrawingTwiceRestoresTheDisplay : Prop :=
  ∀ (s : State) (x y : RegIdx) (n : Nibble), x ≠ 15 → y ≠ 15 → (n = 0 ∨ s.idx.toNat + n.toNat - 1 ≤ 0xFFF) →
    ∃ t u, exec (.drw x y n) s = .next t ∧ exec (.drw x y n) t = .next u ∧ u.disp = s.disp ∧
      ((∃ px py, px < 64 ∧ py < 32 ∧
          spriteCovers ((s.reg x).toNat % 64) ((s.reg y).toNat % 32) (s.spriteRows n) px py = true) →
        t.reg 15 = 1 ∨ u.reg 15 = 1) ∧
      (∀ px py, px < 64 → py < 32 →
        spriteCovers ((s.reg x).toNat % 64) ((s.reg y).toNat % 32) (s.spriteRows n) px py = true →
        s.disp.cell px py = false → u.reg 15 = 1)

/-! ### Control flow (spec/40_control_flow.md) -/

/-- R70: the words that are NOP, and that it does nothing. -/
def Obligations.NopDoesNothing : Prop :=
  (∀ w : Word,
    (w.extractLsb' 12 4 = 0x0 ∧ w.extractLsb' 0 4 ≠ 0x0 ∧ w.extractLsb' 0 4 ≠ 0xE) ∨
    (w.extractLsb' 12 4 = 0x8 ∧ 8 ≤ (w.extractLsb' 0 4).toNat ∧ w.extractLsb' 0 4 ≠ 0xE) ∨
    (w.extractLsb' 12 4 = 0xE ∧ w.extractLsb' 0 4 ≠ 0x1 ∧ w.extractLsb' 0 4 ≠ 0xE) ∨
    (w.extractLsb' 12 4 = 0xF ∧
      (w.extractLsb' 0 8).toNat ∉ [0x07, 0x0A, 0x15, 0x18, 0x1E, 0x29, 0x33, 0x55, 0x65]) ↔
    decode w = .nop) ∧
  (∀ s : State, exec .nop s = .next s) ∧
  ∀ s : State, s.Running → s.instrAt = some .nop → ∃ t, step s = .next t ∧
    t = { s with pc := s.pc + 2, dt := t.dt, st := t.st, ports := t.ports } ∧
    t.dt.toNat = s.dt.toNat - 1 ∧ t.st.toNat = s.st.toNat - 1

/-- R71: `JP nnn`. -/
def Obligations.JumpSetsPc : Prop :=
  DecodesAs 0xF000 0x1000 (fun w => .jp (w.extractLsb' 0 12)) ∧
  ∀ (nnn : Addr12) (s : State), exec (.jp nnn) s = .next { s with pc := nnn.setWidth 16 }

/-- R78: `JP V0, nnn`: the exact sum, with no wrap to 12 bits. That entry 0xB is this instruction is the spec's decision D4. -/
def Obligations.JumpV0AddsV0 : Prop :=
  DecodesAs 0xF000 0xB000 (fun w => .jpV0 (w.extractLsb' 0 12)) ∧
  ∀ (nnn : Addr12) (s : State), ∃ t, exec (.jpV0 nnn) s = .next t ∧ t = { s with pc := t.pc } ∧
    t.pc.toNat = nnn.toNat + (s.reg 0).toNat

/-- R72: `CALL nnn`: pushes the advanced `pc` and jumps; on a full stack `StackOverflow(16)` and nothing written (the
spec's decision D14; the order of write and increment is its D13). -/
def Obligations.CallPushesAndJumps : Prop :=
  DecodesAs 0xF000 0x2000 (fun w => .call (w.extractLsb' 0 12)) ∧
  (∀ (nnn : Addr12) (s : State), s.sp.val < 16 → ∃ t, exec (.call nnn) s = .next t ∧
    t = { s with stack := t.stack, sp := t.sp, pc := nnn.setWidth 16 } ∧ t.sp.val = s.sp.val + 1 ∧
    ∀ j : Fin 16, t.stack.get j = if j.val = s.sp.val then s.pc else s.stack.get j) ∧
  ∀ (nnn : Addr12) (s : State), s.sp.val = 16 →
    exec (.call nnn) s = .next { s with pc := s.pc - 2, fault := ⟨true, 3, 16⟩ }

/-- R73: `RET`: pops into `pc`, the entry keeping its value; on an empty stack `StackUnderflow(0)` and nothing written
(the spec's decision D14). -/
def Obligations.ReturnPopsIntoPc : Prop :=
  DecodesAs 0xF00F 0x000E (fun _ => .ret) ∧
  (∀ (s : State) (j : Fin 16), s.sp.val = j.val + 1 →
    exec .ret s = .next { s with sp := ⟨j.val, by omega⟩, pc := s.stack.get j }) ∧
  ∀ s : State, s.sp.val = 0 → exec .ret s = .next { s with pc := s.pc - 2, fault := ⟨true, 4, 0⟩ }

/-- R74, R76: `SE Vx, kk` and `SE Vx, Vy`: `PC` moves by 2 more exactly when the operands are equal, and nothing else
changes. -/
def Obligations.SkipIfEqual : Prop :=
  DecodesAs 0xF000 0x3000 (fun w => .seImm (w.extractLsb' 8 4).toFin (w.extractLsb' 0 8)) ∧
  DecodesAs 0xF000 0x5000 (fun w => .seReg (w.extractLsb' 8 4).toFin (w.extractLsb' 4 4).toFin) ∧
  (∀ (x : RegIdx) (kk : Byte) (s : State),
    exec (.seImm x kk) s = .next { s with pc := if s.reg x = kk then s.pc + 2 else s.pc }) ∧
  ∀ (x y : RegIdx) (s : State),
    exec (.seReg x y) s = .next { s with pc := if s.reg x = s.reg y then s.pc + 2 else s.pc }

/-- R75, R77: `SNE Vx, kk` and `SNE Vx, Vy`: the same with the condition inverted. That these two exist and skip on a
difference is the spec's decision D12 ("match" is read as "the instruction's condition holds"). -/
def Obligations.SkipIfDifferent : Prop :=
  DecodesAs 0xF000 0x4000 (fun w => .sneImm (w.extractLsb' 8 4).toFin (w.extractLsb' 0 8)) ∧
  DecodesAs 0xF000 0x9000 (fun w => .sneReg (w.extractLsb' 8 4).toFin (w.extractLsb' 4 4).toFin) ∧
  (∀ (x : RegIdx) (kk : Byte) (s : State),
    exec (.sneImm x kk) s = .next { s with pc := if s.reg x ≠ kk then s.pc + 2 else s.pc }) ∧
  ∀ (x y : RegIdx) (s : State),
    exec (.sneReg x y) s = .next { s with pc := if s.reg x ≠ s.reg y then s.pc + 2 else s.pc }

/-! ### Loads (spec/41_load_move.md) -/

/-- R90, R91, R92: the immediate load, the register move and the index load. -/
def Obligations.LoadsSetTheirDestination : Prop :=
  DecodesAs 0xF000 0x6000 (fun w => .ldImm (w.extractLsb' 8 4).toFin (w.extractLsb' 0 8)) ∧
  DecodesAs 0xF00F 0x8000 (fun w => .ldReg (w.extractLsb' 8 4).toFin (w.extractLsb' 4 4).toFin) ∧
  DecodesAs 0xF000 0xA000 (fun w => .ldI (w.extractLsb' 0 12)) ∧
  (∀ (x : RegIdx) (kk : Byte) (s : State), ∃ t, exec (.ldImm x kk) s = .next t ∧ t = { s with v := t.v } ∧
    ∀ r : RegIdx, t.reg r = if r = x then kk else s.reg r) ∧
  (∀ (x y : RegIdx) (s : State), ∃ t, exec (.ldReg x y) s = .next t ∧ t = { s with v := t.v } ∧
    ∀ r : RegIdx, t.reg r = if r = x then s.reg y else s.reg r) ∧
  ∀ (nnn : Addr12) (s : State), ∃ t, exec (.ldI nnn) s = .next t ∧ t = { s with idx := t.idx } ∧
    t.idx.toNat = nnn.toNat

/-! ### Arithmetic (spec/42_arithmetic.md) -/

/-- R101: `ADD Vx, kk`: modulo 256, VF not written (the spec's decisions D2 and D11). -/
def Obligations.AddImmediateWraps : Prop :=
  DecodesAs 0xF000 0x7000 (fun w => .addImm (w.extractLsb' 8 4).toFin (w.extractLsb' 0 8)) ∧
  ∀ (x : RegIdx) (kk : Byte) (s : State), ∃ t, exec (.addImm x kk) s = .next t ∧ t = { s with v := t.v } ∧
    (t.reg x).toNat = ((s.reg x).toNat + kk.toNat) % 256 ∧ ∀ r : RegIdx, r ≠ x → t.reg r = s.reg r

/-- R102: `ADD Vx, Vy`: the sum modulo 256 in `V[x]`; the carry in VF unless VF is the destination. -/
def Obligations.AddRegistersSetsCarry : Prop :=
  DecodesAs 0xF00F 0x8004 (fun w => .addReg (w.extractLsb' 8 4).toFin (w.extractLsb' 4 4).toFin) ∧
  ∀ (x y : RegIdx) (s : State), ∃ t, exec (.addReg x y) s = .next t ∧ t = { s with v := t.v } ∧
    (t.reg x).toNat = ((s.reg x).toNat + (s.reg y).toNat) % 256 ∧
    (x ≠ 15 → (t.reg 15).toNat = if (s.reg x).toNat + (s.reg y).toNat > 255 then 1 else 0) ∧
    ∀ r : RegIdx, r ≠ x → r ≠ 15 → t.reg r = s.reg r

/-- R103: `SUB Vx, Vy`: the difference modulo 256; VF is 1 exactly when `V[x] > V[y]`, strictly. -/
def Obligations.SubtractSetsStrictNoBorrow : Prop :=
  DecodesAs 0xF00F 0x8005 (fun w => .subReg (w.extractLsb' 8 4).toFin (w.extractLsb' 4 4).toFin) ∧
  ∀ (x y : RegIdx) (s : State), ∃ t, exec (.subReg x y) s = .next t ∧ t = { s with v := t.v } ∧
    ((t.reg x).toNat : Int) = ((s.reg x).toNat - (s.reg y).toNat : Int) % 256 ∧
    (x ≠ 15 → (t.reg 15).toNat = if (s.reg x).toNat > (s.reg y).toNat then 1 else 0) ∧
    ∀ r : RegIdx, r ≠ x → r ≠ 15 → t.reg r = s.reg r

/-- R104: `SUBN Vx, Vy`: `V[y] - V[x]` modulo 256; VF is 1 exactly when `V[y] > V[x]`, strictly. -/
def Obligations.ReverseSubtractSetsStrictNoBorrow : Prop :=
  DecodesAs 0xF00F 0x8007 (fun w => .subnReg (w.extractLsb' 8 4).toFin (w.extractLsb' 4 4).toFin) ∧
  ∀ (x y : RegIdx) (s : State), ∃ t, exec (.subnReg x y) s = .next t ∧ t = { s with v := t.v } ∧
    ((t.reg x).toNat : Int) = ((s.reg y).toNat - (s.reg x).toNat : Int) % 256 ∧
    (x ≠ 15 → (t.reg 15).toNat = if (s.reg y).toNat > (s.reg x).toNat then 1 else 0) ∧
    ∀ r : RegIdx, r ≠ x → r ≠ 15 → t.reg r = s.reg r

/-! ### Logic and shifts (spec/43_logic_shift.md) -/

/-- R110, R111, R112: the three logic instructions, bit by bit; VF is not written unless it is the destination. -/
def Obligations.LogicWorksBitwise : Prop :=
  DecodesAs 0xF00F 0x8001 (fun w => .orReg (w.extractLsb' 8 4).toFin (w.extractLsb' 4 4).toFin) ∧
  DecodesAs 0xF00F 0x8002 (fun w => .andReg (w.extractLsb' 8 4).toFin (w.extractLsb' 4 4).toFin) ∧
  DecodesAs 0xF00F 0x8003 (fun w => .xorReg (w.extractLsb' 8 4).toFin (w.extractLsb' 4 4).toFin) ∧
  (∀ (x y : RegIdx) (s : State), ∃ t, exec (.orReg x y) s = .next t ∧ t = { s with v := t.v } ∧
    (∀ b, (t.reg x).getLsbD b = ((s.reg x).getLsbD b || (s.reg y).getLsbD b)) ∧
    ∀ r : RegIdx, r ≠ x → t.reg r = s.reg r) ∧
  (∀ (x y : RegIdx) (s : State), ∃ t, exec (.andReg x y) s = .next t ∧ t = { s with v := t.v } ∧
    (∀ b, (t.reg x).getLsbD b = ((s.reg x).getLsbD b && (s.reg y).getLsbD b)) ∧
    ∀ r : RegIdx, r ≠ x → t.reg r = s.reg r) ∧
  ∀ (x y : RegIdx) (s : State), ∃ t, exec (.xorReg x y) s = .next t ∧ t = { s with v := t.v } ∧
    (∀ b, (t.reg x).getLsbD b = ((s.reg x).getLsbD b ^^ (s.reg y).getLsbD b)) ∧
    ∀ r : RegIdx, r ≠ x → t.reg r = s.reg r

/-- R113: `SHR Vx`: half of `V[x]`, and its low bit in VF unless VF is the destination. -/
def Obligations.ShiftRightSavesLowBit : Prop :=
  DecodesAs 0xF00F 0x8006 (fun w => .shr (w.extractLsb' 8 4).toFin) ∧
  ∀ (x : RegIdx) (s : State), ∃ t, exec (.shr x) s = .next t ∧ t = { s with v := t.v } ∧
    (t.reg x).toNat = (s.reg x).toNat / 2 ∧ (x ≠ 15 → (t.reg 15).toNat = (s.reg x).toNat % 2) ∧
    ∀ r : RegIdx, r ≠ x → r ≠ 15 → t.reg r = s.reg r

/-- R114: `SHL Vx`: twice `V[x]` modulo 256, and its high bit in VF unless VF is the destination. -/
def Obligations.ShiftLeftSavesHighBit : Prop :=
  DecodesAs 0xF00F 0x800E (fun w => .shl (w.extractLsb' 8 4).toFin) ∧
  ∀ (x : RegIdx) (s : State), ∃ t, exec (.shl x) s = .next t ∧ t = { s with v := t.v } ∧
    (t.reg x).toNat = 2 * (s.reg x).toNat % 256 ∧ (x ≠ 15 → (t.reg 15).toNat = (s.reg x).toNat / 128) ∧
    ∀ r : RegIdx, r ≠ x → r ≠ 15 → t.reg r = s.reg r

/-! ### Random (spec/44_random.md) -/

/-- R120, R121: `RND Vx, kk`: the byte on the random port, whatever it is, under the mask; one byte is consumed (the spec's
decision D22). The port is the model's: a lined-up byte, or else the free value `Config.randByte` (log entry 2). -/
def Obligations.RandomIsMasked : Prop :=
  DecodesAs 0xF000 0xC000 (fun w => .rnd (w.extractLsb' 8 4).toFin (w.extractLsb' 0 8)) ∧
  ∀ (x : RegIdx) (kk : Byte) (s : State), ∃ t, exec (.rnd x kk) s = .next t ∧
    t = { s with
      v := t.v
      ports := { s.ports with randPlan := s.ports.randPlan.drop 1, randTurn := s.ports.randTurn + 1 } } ∧
    (∀ b rest, s.ports.randPlan = b :: rest → t.reg x = b &&& kk) ∧
    (s.ports.randPlan = [] → t.reg x = Config.randByte s.ports.randTurn &&& kk) ∧
    (∀ b, kk.getLsbD b = false → (t.reg x).getLsbD b = false) ∧
    ∀ r : RegIdx, r ≠ x → t.reg r = s.reg r

/-! ### Display (spec/45_display.md) -/

/-- R129: `CLS` turns every cell off and changes nothing else. -/
def Obligations.ClearTurnsEveryCellOff : Prop :=
  DecodesAs 0xF00F 0x0000 (fun _ => .cls) ∧
  ∀ s : State, ∃ t, exec .cls s = .next t ∧ t = { s with disp := t.disp } ∧ ∀ px py, t.disp.cell px py = false

/-- R126, R127, R128, R125: `DRW Vx, Vy, n`: every cell of the screen the sprite covers is toggled, no other; VF is 1 if a
covered cell was on and else 0; a sprite that reaches past 0xFFF raises `DataRange` and changes nothing but the latch, `PC`
back at `pc0` (R181, R183, the spec's decision D18; the range check R35 is its D15). The bit order is the spec's decision
D7, the clipping its D8, the height 0 its D28. -/
def Obligations.DrawTogglesCoveredCells : Prop :=
  DecodesAs 0xF000 0xD000
    (fun w => .drw (w.extractLsb' 8 4).toFin (w.extractLsb' 4 4).toFin (w.extractLsb' 0 4)) ∧
  (∀ (x y : RegIdx) (n : Nibble) (s : State), (n = 0 ∨ s.idx.toNat + n.toNat - 1 ≤ 0xFFF) →
    ∃ t, exec (.drw x y n) s = .next t ∧ t = { s with v := t.v, disp := t.disp } ∧
      (∀ px py, px < 64 → py < 32 →
        t.disp.cell px py = (s.disp.cell px py ^^
          spriteCovers ((s.reg x).toNat % 64) ((s.reg y).toNat % 32) (s.spriteRows n) px py)) ∧
      ((∃ px py, px < 64 ∧ py < 32 ∧ s.disp.cell px py = true ∧
          spriteCovers ((s.reg x).toNat % 64) ((s.reg y).toNat % 32) (s.spriteRows n) px py = true) →
        t.reg 15 = 1) ∧
      ((∀ px py, px < 64 → py < 32 → s.disp.cell px py = true →
          spriteCovers ((s.reg x).toNat % 64) ((s.reg y).toNat % 32) (s.spriteRows n) px py = false) →
        t.reg 15 = 0) ∧
      ∀ r : RegIdx, r ≠ 15 → t.reg r = s.reg r) ∧
  ∀ (x y : RegIdx) (n : Nibble) (s : State), n ≠ 0 → s.idx.toNat + n.toNat - 1 > 0xFFF →
    exec (.drw x y n) s =
      .next { s with pc := s.pc - 2, fault := ⟨true, 2, BitVec.ofNat 16 (max s.idx.toNat 0x1000)⟩ }

/-! ### Keypad (spec/46_keypad.md) -/

/-- R141: `SKP Vx`; the fault on a key index above 15 is the spec's decision D16. -/
def Obligations.SkipIfKeyPressed : Prop :=
  DecodesAs 0xF00F 0xE00E (fun w => .skp (w.extractLsb' 8 4).toFin) ∧
  (∀ (x : RegIdx) (s : State), (s.reg x).toNat ≤ 15 →
    exec (.skp x) s =
      .next { s with pc := if s.ports.keys.getLsbD (s.reg x).toNat = true then s.pc + 2 else s.pc }) ∧
  ∀ (x : RegIdx) (s : State), (s.reg x).toNat > 15 →
    exec (.skp x) s = .next { s with pc := s.pc - 2, fault := ⟨true, 5, (s.reg x).setWidth 16⟩ }

/-- R142: `SKNP Vx`; the fault on a key index above 15 is the spec's decision D16. -/
def Obligations.SkipIfKeyNotPressed : Prop :=
  DecodesAs 0xF00F 0xE001 (fun w => .sknp (w.extractLsb' 8 4).toFin) ∧
  (∀ (x : RegIdx) (s : State), (s.reg x).toNat ≤ 15 →
    exec (.sknp x) s =
      .next { s with pc := if s.ports.keys.getLsbD (s.reg x).toNat = false then s.pc + 2 else s.pc }) ∧
  ∀ (x : RegIdx) (s : State), (s.reg x).toNat > 15 →
    exec (.sknp x) s = .next { s with pc := s.pc - 2, fault := ⟨true, 5, (s.reg x).setWidth 16⟩ }

/-- R143: `LD Vx, K`: the least pressed key into `V[x]`, or back to the instruction when no key is pressed. (The
tick of the cycle, the other part of R143, is in `TimersTickOncePerCycle`.) -/
def Obligations.KeyWaitTakesTheLowestKey : Prop :=
  DecodesAs 0xF0FF 0xF00A (fun w => .ldVxK (w.extractLsb' 8 4).toFin) ∧
  (∀ (x : RegIdx) (k : Fin 16) (s : State), s.ports.keys.getLsbD k.val = true →
    (∀ j : Fin 16, j < k → s.ports.keys.getLsbD j.val = false) →
    ∃ t, exec (.ldVxK x) s = .next t ∧ t = { s with v := t.v } ∧ (t.reg x).toNat = k.val ∧
      ∀ r : RegIdx, r ≠ x → t.reg r = s.reg r) ∧
  ∀ (x : RegIdx) (s : State), (∀ k : Fin 16, s.ports.keys.getLsbD k.val = false) →
    exec (.ldVxK x) s = .next { s with pc := s.pc - 2 }

/-! ### Timers (spec/47_timers.md) -/

/-- R150, R151, R152: the three timer instructions, in the execute step and over the whole cycle with its tick (which R151
marks as derived from R154 and R20). -/
def Obligations.TimerInstructionsMoveBytes : Prop :=
  DecodesAs 0xF0FF 0xF007 (fun w => .ldVxDt (w.extractLsb' 8 4).toFin) ∧
  DecodesAs 0xF0FF 0xF015 (fun w => .ldDtVx (w.extractLsb' 8 4).toFin) ∧
  DecodesAs 0xF0FF 0xF018 (fun w => .ldStVx (w.extractLsb' 8 4).toFin) ∧
  (∀ (x : RegIdx) (s : State), ∃ t, exec (.ldVxDt x) s = .next t ∧ t = { s with v := t.v } ∧
    ∀ r : RegIdx, t.reg r = if r = x then s.dt else s.reg r) ∧
  (∀ (x : RegIdx) (s : State), exec (.ldDtVx x) s = .next { s with dt := s.reg x }) ∧
  (∀ (x : RegIdx) (s : State), exec (.ldStVx x) s = .next { s with st := s.reg x }) ∧
  (∀ (x : RegIdx) (s : State), s.Running → s.instrAt = some (.ldVxDt x) →
    ∃ t, step s = .next t ∧ t.reg x = s.dt ∧ t.dt.toNat = s.dt.toNat - 1) ∧
  (∀ (x : RegIdx) (s : State), s.Running → s.instrAt = some (.ldDtVx x) →
    ∃ t, step s = .next t ∧ t.dt.toNat = (s.reg x).toNat - 1) ∧
  ∀ (x : RegIdx) (s : State), s.Running → s.instrAt = some (.ldStVx x) →
    ∃ t, step s = .next t ∧ t.st.toNat = (s.reg x).toNat - 1

/-! ### Index register and memory (spec/48_index_memory.md) -/

/-- R160: `ADD I, Vx`: modulo 65536, VF not written (the spec's decisions D11 and D15). -/
def Obligations.AddToIndexWraps : Prop :=
  DecodesAs 0xF0FF 0xF01E (fun w => .addI (w.extractLsb' 8 4).toFin) ∧
  ∀ (x : RegIdx) (s : State), ∃ t, exec (.addI x) s = .next t ∧ t = { s with idx := t.idx } ∧
    t.idx.toNat = (s.idx.toNat + (s.reg x).toNat) % 65536

/-- R161: `LD F, Vx`: the glyph of the low nibble (the spec's decision D17), for every FONT_BASE the machine may have been built
with (the parameter of R7, the spec's decision D5; log entry 4). -/
def Obligations.FontAddressOfLowNibble : Prop :=
  DecodesAs 0xF0FF 0xF029 (fun w => .ldF (w.extractLsb' 8 4).toFin) ∧
  ∀ (x : RegIdx) (s : State), ∃ t, exec (.ldF x) s = .next t ∧ t = { s with idx := t.idx } ∧
    t.idx.toNat = s.fontBase.val + 5 * ((s.reg x).toNat % 16)

/-- R163: `LD B, Vx`: hundreds, tens and ones at `I`, `I + 1`, `I + 2`, and no other byte; past 0xFFF `DataRange` and no byte
is written. The latch of the fault and `PC` back at `pc0` are R181 and R183, the spec's decision D18; the range check is its
D15. -/
def Obligations.BcdStoresThreeDigits : Prop :=
  DecodesAs 0xF0FF 0xF033 (fun w => .ldB (w.extractLsb' 8 4).toFin) ∧
  (∀ (x : RegIdx) (s : State), s.memWf = true → s.idx.toNat + 2 ≤ 0xFFF →
    ∃ t, exec (.ldB x) s = .next t ∧ t = { s with mem := t.mem } ∧
      (t.byte s.idx.toNat).toNat = (s.reg x).toNat / 100 ∧
      (t.byte (s.idx.toNat + 1)).toNat = (s.reg x).toNat / 10 % 10 ∧
      (t.byte (s.idx.toNat + 2)).toNat = (s.reg x).toNat % 10 ∧
      ∀ a, (a < s.idx.toNat ∨ s.idx.toNat + 2 < a) → t.byte a = s.byte a) ∧
  ∀ (x : RegIdx) (s : State), s.idx.toNat + 2 > 0xFFF →
    exec (.ldB x) s =
      .next { s with pc := s.pc - 2, fault := ⟨true, 2, BitVec.ofNat 16 (max s.idx.toNat 0x1000)⟩ }

/-- R164: `LD [I], Vx`: `V[0]` to `V[x]` at `I` to `I + x`, and no other byte; past 0xFFF `DataRange` and no byte is written.
The latch of the fault and `PC` back at `pc0` are R181 and R183, the spec's decision D18; the range check is its D15. -/
def Obligations.BlockStoreWritesRegisters : Prop :=
  DecodesAs 0xF0FF 0xF055 (fun w => .stRegs (w.extractLsb' 8 4).toFin) ∧
  (∀ (x : RegIdx) (s : State), s.memWf = true → s.idx.toNat + x.val ≤ 0xFFF →
    ∃ t, exec (.stRegs x) s = .next t ∧ t = { s with mem := t.mem } ∧
      (∀ r : RegIdx, r ≤ x → t.byte (s.idx.toNat + r.val) = s.reg r) ∧
      ∀ a, (a < s.idx.toNat ∨ s.idx.toNat + x.val < a) → t.byte a = s.byte a) ∧
  ∀ (x : RegIdx) (s : State), s.idx.toNat + x.val > 0xFFF →
    exec (.stRegs x) s =
      .next { s with pc := s.pc - 2, fault := ⟨true, 2, BitVec.ofNat 16 (max s.idx.toNat 0x1000)⟩ }

/-- R165: `LD Vx, [I]`: `V[0]` to `V[x]` from `I` to `I + x`; the registers above are unchanged; past 0xFFF `DataRange` and no
register is written. The latch of the fault and `PC` back at `pc0` are R181 and R183, the spec's decision D18; the range
check is its D15. -/
def Obligations.BlockLoadReadsMemory : Prop :=
  DecodesAs 0xF0FF 0xF065 (fun w => .ldRegs (w.extractLsb' 8 4).toFin) ∧
  (∀ (x : RegIdx) (s : State), s.idx.toNat + x.val ≤ 0xFFF →
    ∃ t, exec (.ldRegs x) s = .next t ∧ t = { s with v := t.v } ∧
      ∀ r : RegIdx, t.reg r = if r ≤ x then s.byte (s.idx.toNat + r.val) else s.reg r) ∧
  ∀ (x : RegIdx) (s : State), s.idx.toNat + x.val > 0xFFF →
    exec (.ldRegs x) s =
      .next { s with pc := s.pc - 2, fault := ⟨true, 2, BitVec.ofNat 16 (max s.idx.toNat 0x1000)⟩ }

/-! ### Memory, reset and the host (spec/20_memory.md, 60_exceptions.md, 70_reset_and_hazards.md) -/

/-- About the model's own representation (log entry 8), for R30 and every FONT_BASE: a memory is what its 4096 bytes are: two
canonical memories that read the same at every address are equal. -/
def Obligations.CanonicalMemoriesAreTheirBytes : Prop :=
  ∀ (base : FontBase) (m m' : Memory), m.wf base = true → m'.wf base = true →
    (∀ a, a < 4096 → m.read base a = m'.read base a) → m = m'

/-- R43: where the load port is open, the load writes byte `i` of the image at `0x200 + i` and no other byte; an image of more
than 3584 bytes writes nothing and signals `CapacityExceeded`, and no fault is latched; either way nothing else changes but
the port, which is then closed (log entry 10). Where it is closed the load is refused and there is no state after it (R42).
All of this is the spec's decision D23. -/
def Obligations.LoadCopiesTheWholeImageOrNothing : Prop :=
  (∀ (s : State) (img : List Byte), s.memWf = true → s.ports.loadOpen = true → img.length ≤ 3584 →
    ∃ t, s.load img = .loaded t ∧ t = { s with mem := t.mem, ports := { s.ports with loadOpen := false } } ∧
      ∀ a, t.byte a =
        if 0x200 ≤ a ∧ a < 0x200 + img.length then img.getD (a - 0x200) 0 else s.byte a) ∧
  (∀ (s : State) (img : List Byte), s.ports.loadOpen = true → img.length > 3584 →
    s.load img = .capacityExceeded { s with ports := { s.ports with loadOpen := false } }) ∧
  ∀ (s : State) (img : List Byte), s.ports.loadOpen = false →
    s.load img = .refused ∧ (s.load img).state = none ∧ (s.load img).loadError = none

/-- R42, R195 (the refusal is the spec's decision D23; how the model keeps it is log entry 10): a load is taken at most once
between reset and the first cycle: after a load, whatever its result, and after any cycle, one that faults included, every
load is refused; no step and no move of the host but the reset input opens the port again. -/
def Obligations.LoadHappensAtMostOnce : Prop :=
  (∀ base : FontBase, (State.resetAt base).ports.loadOpen = true) ∧
  (∀ (s t : State) (img img' : List Byte), (s.load img).state = some t → t.load img' = .refused) ∧
  (∀ (s t : State) (img : List Byte), s.Running → step s = .next t → t.load img = .refused) ∧
  (∀ (s t : State) (img img' : List Byte), s.load img = .refused → step s = .next t → t.load img' = .refused) ∧
  (∀ (s : State) (img img' : List Byte) (k : BitVec 16) (ks : List (BitVec 16)) (bs : List Byte),
    s.load img = .refused →
      (s.driveKeys k).load img' = .refused ∧ (s.planInputs ks bs).load img' = .refused) ∧
  ∀ s : State, s.applyReset.ports.loadOpen = true

/-- R36, R43, R211: for every FONT_BASE, the first instruction after reset and a load is the first two bytes of the image, high
byte first (the spec's decision D1). -/
def Obligations.FirstInstructionIsTheImagesFirstWord : Prop :=
  ∀ (base : FontBase) (hi lo : Byte) (rest : List Byte), rest.length ≤ 3582 →
    ∃ t, launch base (hi :: lo :: rest) = .loaded t ∧ t.Running ∧
      t.instrAt = some (decode (BitVec.ofNat 16 (256 * hi.toNat + lo.toNat)))

/-- R24: every piece of state after reset, for every FONT_BASE (the parameter of R7, the spec's decision D5). `State.reset` is
the reset state at the default 0x050 (log entry 4); the bytes of the font are the model's constant `fontTable` (log entry
5); that the load port is open is log entry 10. -/
def Obligations.ResetStateIsAsListed : Prop :=
  State.reset = State.resetAt 0x050 ∧
  ∀ (base : FontBase) (s : State), s = State.resetAt base →
    s.fontBase = base ∧ (∀ x : RegIdx, s.reg x = 0) ∧ s.idx = 0 ∧ s.pc = 0x200 ∧ s.sp.val = 0 ∧
    (∀ j : Fin 16, s.stack.get j = 0) ∧ s.dt = 0 ∧ s.st = 0 ∧ (∀ px py, s.disp.cell px py = false) ∧
    (∀ j, j < 80 → s.byte (base.val + j) = fontTable.getD j 0) ∧
    (∀ a, a < base.val ∨ base.val + 80 ≤ a → s.byte a = 0) ∧
    s.fault.fv = false ∧ s.fault.fc = 0 ∧ s.fault.fi = 0 ∧ s.ports.keys = 0 ∧ s.ports.loadOpen = true

/-- R210, R185: the reset input puts every item of R10 at its reset value in any state, a halted one too, so that the core
runs again; the loaded program is gone (the spec's decision D27), and FONT_BASE stays. -/
def Obligations.ResetInputRestoresEverything : Prop :=
  ∀ s : State, s.applyReset.core = State.resetAt s.fontBase ∧ s.applyReset.Running ∧ s.applyReset.ports.keys = 0

/-- R32, R161 (FONT_BASE and its constraint are the spec's decision D5), for every FONT_BASE: glyph `d` is the 5 bytes at
`FONT_BASE + 5 * d`, below 0x200, and after reset they are the rows of digit `d` in the font table. -/
def Obligations.GlyphsLieBelowThePrograms : Prop :=
  ∀ (base : FontBase) (d : Nibble),
    (glyphAddr base d).toNat = base.val + 5 * d.toNat ∧ (glyphAddr base d).toNat + 4 < 0x200 ∧
    ∀ j, j < 5 → (State.resetAt base).byte ((glyphAddr base d).toNat + j) = fontTable.getD (5 * d.toNat + j) 0

/-- R192, R17: bit `64 * y + x` of the display port is `DISP[x, y]`. -/
def Obligations.DisplayPortShowsTheCells : Prop :=
  ∀ (s : State) (x y : Nat), x < 64 → y < 32 → s.dispPort (64 * y + x) = s.disp.cell x y
end

