-- ==== Sys2Proof/Laws/Decode.lean ====
section
/-! SUPPORT. Laws/Decode.lean: what the fields of an encoded word are, and that the bytes of a word give it back. -/

namespace Sys2Proof

/-- A word's two bytes in memory order are the word again (R36). -/
@[simp] theorem wordOfBytes_bytesOfWord (w : Word) : wordOfBytes (w.extractLsb' 8 8) (w.extractLsb' 0 8) = w := by
  ext i hi
  interval_cases i <;> simp [wordOfBytes]

/-- Decoding a word's bytes decodes the word and leaves what follows (R36, R50). -/
@[simp] theorem decodeBytes_bytesOfWord (w : Word) (rest : List Byte) :
    decodeBytes (bytesOfWord w ++ rest) = .instr (decode w) rest := by
  simp [bytesOfWord, decodeBytes]

/-! ### The fields of an encoded word -/

@[simp] theorem fieldOp_packNNN (op : Nibble) (nnn : Addr12) : fieldOp (packNNN op nnn) = op := by
  ext i hi
  interval_cases i <;> simp [fieldOp, packNNN]

@[simp] theorem fieldNNN_packNNN (op : Nibble) (nnn : Addr12) : fieldNNN (packNNN op nnn) = nnn := by
  ext i hi
  interval_cases i <;> simp [fieldNNN, packNNN]

@[simp] theorem fieldOp_packXKK (op : Nibble) (x : RegIdx) (kk : Byte) : fieldOp (packXKK op x kk) = op := by
  ext i hi
  interval_cases i <;> simp [fieldOp, packXKK]

@[simp] theorem fieldX_packXKK (op : Nibble) (x : RegIdx) (kk : Byte) : fieldX (packXKK op x kk) = x := by
  have h : (packXKK op x kk).extractLsb' 8 4 = regField x := by
    ext i hi
    interval_cases i <;> simp [packXKK]
  simp only [fieldX, h]
  rfl

@[simp] theorem fieldKK_packXKK (op : Nibble) (x : RegIdx) (kk : Byte) : fieldKK (packXKK op x kk) = kk := by
  ext i hi
  interval_cases i <;> simp [fieldKK, packXKK]

@[simp] theorem fieldN_packXKK (op : Nibble) (x : RegIdx) (kk : Byte) :
    fieldN (packXKK op x kk) = kk.extractLsb' 0 4 := by
  ext i hi
  interval_cases i <;> simp [fieldN, packXKK]

@[simp] theorem fieldOp_packXYN (op : Nibble) (x y : RegIdx) (n : Nibble) : fieldOp (packXYN op x y n) = op := by
  ext i hi
  interval_cases i <;> simp [fieldOp, packXYN]

@[simp] theorem fieldX_packXYN (op : Nibble) (x y : RegIdx) (n : Nibble) : fieldX (packXYN op x y n) = x := by
  have h : (packXYN op x y n).extractLsb' 8 4 = regField x := by
    ext i hi
    interval_cases i <;> simp [packXYN]
  simp only [fieldX, h]
  rfl

@[simp] theorem fieldY_packXYN (op : Nibble) (x y : RegIdx) (n : Nibble) : fieldY (packXYN op x y n) = y := by
  have h : (packXYN op x y n).extractLsb' 4 4 = regField y := by
    ext i hi
    interval_cases i <;> simp [packXYN]
  simp only [fieldY, h]
  rfl

@[simp] theorem fieldN_packXYN (op : Nibble) (x y : RegIdx) (n : Nibble) : fieldN (packXYN op x y n) = n := by
  ext i hi
  interval_cases i <;> simp [fieldN, packXYN]

/-! ### Fields read back by mask and pattern (R62) -/

/-- A word whose top nibble is fixed by mask and pattern has it as its group. -/
theorem fieldOp_of_mask {w pattern : Word} (h : w &&& 0xF000 = pattern) : fieldOp w = fieldOp pattern := by
  subst h
  ext i hi
  interval_cases i <;> simp [fieldOp]

/-- The same for the masks of groups 0, 8 and E, with the low nibble. -/
theorem fields_of_mask_sel4 {w pattern : Word} (h : w &&& 0xF00F = pattern) :
    fieldOp w = fieldOp pattern ∧ fieldN w = fieldN pattern := by
  subst h
  constructor
  · ext i hi
    interval_cases i <;> simp [fieldOp]
  · ext i hi
    interval_cases i <;> simp [fieldN]

/-- The same for the mask of group F, with the low byte. -/
theorem fields_of_mask_sel8 {w pattern : Word} (h : w &&& 0xF0FF = pattern) :
    fieldOp w = fieldOp pattern ∧ fieldKK w = fieldKK pattern := by
  subst h
  constructor
  · ext i hi
    interval_cases i <;> simp [fieldOp]
  · ext i hi
    interval_cases i <;> simp [fieldKK]

end Sys2Proof
end

