-- ==== Sys2Proof/Laws/Memory.lean ====
section
/-! SUPPORT. Laws/Memory.lean: what a write does to every byte, that every memory operation keeps the canonical form, and the
meaning of the whole-range check; all for any FONT_BASE. -/

namespace Sys2Proof.Machine

variable {base : FontBase}

/-! ### One byte -/

/-- A cell put in front answers for its own address and hides no other. -/
theorem Memory.read_put (m : Memory) (a : Nat) (b : Byte) (h : Memory.read base m a = resetByte base a) (k : Nat) :
    Memory.read base (Memory.put base m a b) k = if k = a then b else Memory.read base m k := by
  unfold Memory.put
  by_cases hb : b = resetByte base a
  · by_cases hk : k = a <;> simp [hb, hk, h]
  · simp [hb, Memory.read, eq_comm (a := a)]

/-- Below the first address, a canonical memory lists nothing. -/
theorem Memory.read_below {m : Memory} {lo a : Nat} (h : Memory.wfFrom base lo m = true) (ha : a < lo) :
    Memory.read base m a = resetByte base a := by
  induction m generalizing lo with
  | nil => rfl
  | cons c m ih =>
    simp only [Memory.wfFrom, Bool.and_eq_true, decide_eq_true_eq] at h
    have hne : ¬c.1 = a := by omega
    simp only [Memory.read, if_neg hne]
    exact ih h.2 (by omega)

/-- A canonical memory from `lo` on is canonical from any lower address on. -/
theorem Memory.wfFrom_mono {m : Memory} {lo lo' : Nat} (h : Memory.wfFrom base lo m = true) (hle : lo' ≤ lo) :
    Memory.wfFrom base lo' m = true := by
  cases m with
  | nil => rfl
  | cons c m =>
    simp only [Memory.wfFrom, Bool.and_eq_true, decide_eq_true_eq] at h ⊢
    exact ⟨⟨⟨by omega, h.1.1.2⟩, h.1.2⟩, h.2⟩

/-- Putting a cell in front keeps the canonical form. -/
theorem Memory.wfFrom_put {m : Memory} {lo a : Nat} {b : Byte} (h : Memory.wfFrom base (a + 1) m = true) (hlo : lo ≤ a)
    (ha : a < 4096) : Memory.wfFrom base lo (Memory.put base m a b) = true := by
  unfold Memory.put
  split
  · exact Memory.wfFrom_mono h (by omega)
  · simp [Memory.wfFrom, *]

/-- A write inside memory keeps the canonical form. -/
theorem Memory.wfFrom_write {m : Memory} {lo a : Nat} {b : Byte} (h : Memory.wfFrom base lo m = true) (hlo : lo ≤ a)
    (ha : a < 4096) : Memory.wfFrom base lo (m.write base a b) = true := by
  induction m generalizing lo with
  | nil => exact Memory.wfFrom_put rfl hlo ha
  | cons c m ih =>
    simp only [Memory.write]
    have hc := h
    simp only [Memory.wfFrom, Bool.and_eq_true, decide_eq_true_eq] at hc
    split
    · refine Memory.wfFrom_put ?_ hlo ha
      simp only [Memory.wfFrom, Bool.and_eq_true, decide_eq_true_eq]
      exact ⟨⟨⟨by omega, hc.1.1.2⟩, hc.1.2⟩, hc.2⟩
    · split
      · subst_vars
        exact Memory.wfFrom_put hc.2 hlo ha
      · simp only [Memory.wfFrom, Bool.and_eq_true, decide_eq_true_eq]
        exact ⟨hc.1, ih hc.2 (by omega)⟩

/-- `Memory.write` keeps `Memory.wf`. -/
theorem Memory.wf_write {m : Memory} {a : Nat} {b : Byte} (h : m.wf base = true) (ha : a < 4096) :
    (m.write base a b).wf base = true := Memory.wfFrom_write h (Nat.zero_le a) ha

/-- A write changes the byte at its address and no other, in a canonical memory. -/
theorem Memory.read_writeFrom {m : Memory} {lo a : Nat} {b : Byte} (h : Memory.wfFrom base lo m = true) (k : Nat) :
    Memory.read base (m.write base a b) k = if k = a then b else Memory.read base m k := by
  induction m generalizing lo with
  | nil => exact Memory.read_put [] a b rfl k
  | cons c m ih =>
    simp only [Memory.wfFrom, Bool.and_eq_true, decide_eq_true_eq] at h
    simp only [Memory.write]
    split
    · refine Memory.read_put _ a b ?_ k
      have hne : ¬c.1 = a := by omega
      simp only [Memory.read, if_neg hne]
      exact Memory.read_below h.2 (by omega)
    · split
      · rename_i _ hac
        rw [Memory.read_put m a b (Memory.read_below h.2 (by omega)) k]
        by_cases hk : k = a
        · simp [hk]
        · have hne : ¬c.1 = k := by omega
          simp [hk, Memory.read, hne]
      · simp only [Memory.read]
        by_cases hck : c.1 = k
        · have hka : ¬k = a := by omega
          simp [hck, hka]
        · simp only [if_neg hck]
          exact ih h.2

/-- `Memory.read` after `Memory.write`. -/
theorem Memory.read_write {m : Memory} {a : Nat} {b : Byte} (h : m.wf base = true) (k : Nat) :
    Memory.read base (m.write base a b) k = if k = a then b else Memory.read base m k := Memory.read_writeFrom h k

/-! ### Several bytes -/

/-- A multi-byte read is as long as asked for. -/
@[simp] theorem Memory.length_readList (base : FontBase) (m : Memory) (a n : Nat) : (m.readList base a n).length = n := by
  induction n generalizing a with
  | zero => rfl
  | succ n ih => simp [Memory.readList, ih]

/-- Element `j` of a multi-byte read is the byte at `a + j` (R34). -/
theorem Memory.getD_readList (base : FontBase) (m : Memory) (a n j : Nat) (d : Byte) :
    (m.readList base a n).getD j d = if j < n then m.read base (a + j) else d := by
  induction n generalizing a j with
  | zero => simp [Memory.readList]
  | succ n ih =>
    cases j with
    | zero => simp [Memory.readList]
    | succ j =>
      simp only [Memory.readList, List.getD_cons_succ, ih, Nat.add_lt_add_iff_right]
      congr 2
      omega

/-- The same, in the form simp brings a list look-up to. -/
@[simp] theorem Memory.getElem?_readList (base : FontBase) (m : Memory) (a n j : Nat) :
    (m.readList base a n)[j]? = if j < n then some (m.read base (a + j)) else none := by
  by_cases hj : j < n
  · have h := Memory.getD_readList base m a n j 0
    rw [if_pos hj, List.getD_eq_getElem?_getD, List.getElem?_eq_getElem (by simpa using hj)] at h
    rw [List.getElem?_eq_getElem (by simpa using hj), if_pos hj]
    simpa using h
  · simp [hj]

/-- A multi-byte write inside memory keeps the canonical form. -/
theorem Memory.wf_writeList {m : Memory} {a : Nat} {bs : List Byte} (h : m.wf base = true)
    (ha : a + bs.length ≤ 4096) : (m.writeList base a bs).wf base = true := by
  induction bs generalizing m a with
  | nil => exact h
  | cons b bs ih =>
    simp only [List.length_cons] at ha
    exact ih (Memory.wf_write h (by omega)) (by omega)

/-- A multi-byte write puts byte `j` at `a + j` and changes no other address. -/
theorem Memory.read_writeList {m : Memory} {a : Nat} {bs : List Byte} (h : m.wf base = true)
    (ha : a + bs.length ≤ 4096) (k : Nat) :
    (m.writeList base a bs).read base k = if a ≤ k ∧ k < a + bs.length then bs.getD (k - a) 0 else m.read base k := by
  induction bs generalizing m a with
  | nil =>
    have hn : ¬(a ≤ k ∧ k < a + 0) := by omega
    simp only [Memory.writeList, List.length_nil, if_neg hn]
  | cons b bs ih =>
    simp only [List.length_cons] at ha ⊢
    simp only [Memory.writeList]
    rw [ih (Memory.wf_write h (by omega)) (by omega), Memory.read_write h]
    by_cases hk : k = a
    · subst hk
      have h1 : ¬(k + 1 ≤ k ∧ k < k + 1 + bs.length) := by omega
      simp
    · by_cases hin : a + 1 ≤ k ∧ k < a + 1 + bs.length
      · have h2 : a ≤ k ∧ k < a + (bs.length + 1) := by omega
        obtain ⟨d, hd⟩ : ∃ d, k = a + 1 + d := ⟨k - (a + 1), by omega⟩
        subst hd
        have h3 : a + 1 + d - a = d + 1 := by omega
        have h4 : a + 1 + d - (a + 1) = d := by omega
        rw [if_pos hin, if_pos h2, h3, h4, List.getD_cons_succ]
      · have h2 : ¬(a ≤ k ∧ k < a + (bs.length + 1)) := by omega
        rw [if_neg hin, if_neg h2, if_neg hk]

/-- The empty list of cells, the memory of the reset state, is canonical. -/
theorem Memory.wf_nil : Memory.wf base [] = true := rfl

/-! ### The range check (R35) -/

/-- In range: no byte at all, or the last one inside memory. -/
theorem accessInRange_iff (addr : Word) (n : Nat) :
    accessInRange addr n = true ↔ n = 0 ∨ addr.toNat + n ≤ 4096 := by
  simp only [accessInRange, decide_eq_true_eq]
  omega

/-- The information word of `DataRange` is `max(addr, 0x1000)` (R181). -/
theorem toNat_dataRangeInfo (addr : Word) : (dataRangeInfo addr).toNat = max addr.toNat 0x1000 := by
  unfold dataRangeInfo
  split
  · have h : (0x1000 : Word).toNat = 0x1000 := rfl
    omega
  · omega

end Sys2Proof.Machine
end

