-- ==== Sys2Proof/Laws/State.lean ====
section
/-! SUPPORT. Laws/State.lean: one lemma per field for each named update of the state, true by unfolding the update once, so that
no later proof unfolds a record update; and the laws of reading a register and a byte of memory. -/

namespace Sys2Proof.Machine

/-! ### `State.setReg` -/

@[simp] theorem State.setReg_fontBase (s : State) (x : RegIdx) (b : Byte) : (s.setReg x b).fontBase = s.fontBase := rfl
@[simp] theorem State.setReg_v (s : State) (x : RegIdx) (b : Byte) : (s.setReg x b).v = s.v.set x b := rfl
@[simp] theorem State.setReg_idx (s : State) (x : RegIdx) (b : Byte) : (s.setReg x b).idx = s.idx := rfl
@[simp] theorem State.setReg_pc (s : State) (x : RegIdx) (b : Byte) : (s.setReg x b).pc = s.pc := rfl
@[simp] theorem State.setReg_stack (s : State) (x : RegIdx) (b : Byte) : (s.setReg x b).stack = s.stack := rfl
@[simp] theorem State.setReg_sp (s : State) (x : RegIdx) (b : Byte) : (s.setReg x b).sp = s.sp := rfl
@[simp] theorem State.setReg_dt (s : State) (x : RegIdx) (b : Byte) : (s.setReg x b).dt = s.dt := rfl
@[simp] theorem State.setReg_st (s : State) (x : RegIdx) (b : Byte) : (s.setReg x b).st = s.st := rfl
@[simp] theorem State.setReg_disp (s : State) (x : RegIdx) (b : Byte) : (s.setReg x b).disp = s.disp := rfl
@[simp] theorem State.setReg_mem (s : State) (x : RegIdx) (b : Byte) : (s.setReg x b).mem = s.mem := rfl
@[simp] theorem State.setReg_fault (s : State) (x : RegIdx) (b : Byte) : (s.setReg x b).fault = s.fault := rfl
@[simp] theorem State.setReg_ports (s : State) (x : RegIdx) (b : Byte) : (s.setReg x b).ports = s.ports := rfl

/-! ### `State.setFlagThenReg` -/

@[simp] theorem State.setFlagThenReg_fontBase (s : State) (f : Byte) (x : RegIdx) (b : Byte) : (s.setFlagThenReg f x b).fontBase = s.fontBase := rfl
@[simp] theorem State.setFlagThenReg_v (s : State) (f : Byte) (x : RegIdx) (b : Byte) : (s.setFlagThenReg f x b).v = (s.v.set vf f).set x b := rfl
@[simp] theorem State.setFlagThenReg_idx (s : State) (f : Byte) (x : RegIdx) (b : Byte) : (s.setFlagThenReg f x b).idx = s.idx := rfl
@[simp] theorem State.setFlagThenReg_pc (s : State) (f : Byte) (x : RegIdx) (b : Byte) : (s.setFlagThenReg f x b).pc = s.pc := rfl
@[simp] theorem State.setFlagThenReg_stack (s : State) (f : Byte) (x : RegIdx) (b : Byte) : (s.setFlagThenReg f x b).stack = s.stack := rfl
@[simp] theorem State.setFlagThenReg_sp (s : State) (f : Byte) (x : RegIdx) (b : Byte) : (s.setFlagThenReg f x b).sp = s.sp := rfl
@[simp] theorem State.setFlagThenReg_dt (s : State) (f : Byte) (x : RegIdx) (b : Byte) : (s.setFlagThenReg f x b).dt = s.dt := rfl
@[simp] theorem State.setFlagThenReg_st (s : State) (f : Byte) (x : RegIdx) (b : Byte) : (s.setFlagThenReg f x b).st = s.st := rfl
@[simp] theorem State.setFlagThenReg_disp (s : State) (f : Byte) (x : RegIdx) (b : Byte) : (s.setFlagThenReg f x b).disp = s.disp := rfl
@[simp] theorem State.setFlagThenReg_mem (s : State) (f : Byte) (x : RegIdx) (b : Byte) : (s.setFlagThenReg f x b).mem = s.mem := rfl
@[simp] theorem State.setFlagThenReg_fault (s : State) (f : Byte) (x : RegIdx) (b : Byte) : (s.setFlagThenReg f x b).fault = s.fault := rfl
@[simp] theorem State.setFlagThenReg_ports (s : State) (f : Byte) (x : RegIdx) (b : Byte) : (s.setFlagThenReg f x b).ports = s.ports := rfl

/-! ### `State.setRegBlock` -/

@[simp] theorem State.setRegBlock_fontBase (s : State) (bs : List Byte) : (s.setRegBlock bs).fontBase = s.fontBase := rfl
@[simp] theorem State.setRegBlock_v (s : State) (bs : List Byte) : (s.setRegBlock bs).v = Vector.ofFn fun j : Fin 16 => bs.getD j.val (s.reg j) := rfl
@[simp] theorem State.setRegBlock_idx (s : State) (bs : List Byte) : (s.setRegBlock bs).idx = s.idx := rfl
@[simp] theorem State.setRegBlock_pc (s : State) (bs : List Byte) : (s.setRegBlock bs).pc = s.pc := rfl
@[simp] theorem State.setRegBlock_stack (s : State) (bs : List Byte) : (s.setRegBlock bs).stack = s.stack := rfl
@[simp] theorem State.setRegBlock_sp (s : State) (bs : List Byte) : (s.setRegBlock bs).sp = s.sp := rfl
@[simp] theorem State.setRegBlock_dt (s : State) (bs : List Byte) : (s.setRegBlock bs).dt = s.dt := rfl
@[simp] theorem State.setRegBlock_st (s : State) (bs : List Byte) : (s.setRegBlock bs).st = s.st := rfl
@[simp] theorem State.setRegBlock_disp (s : State) (bs : List Byte) : (s.setRegBlock bs).disp = s.disp := rfl
@[simp] theorem State.setRegBlock_mem (s : State) (bs : List Byte) : (s.setRegBlock bs).mem = s.mem := rfl
@[simp] theorem State.setRegBlock_fault (s : State) (bs : List Byte) : (s.setRegBlock bs).fault = s.fault := rfl
@[simp] theorem State.setRegBlock_ports (s : State) (bs : List Byte) : (s.setRegBlock bs).ports = s.ports := rfl

/-! ### `State.latchFault` -/

@[simp] theorem State.latchFault_fontBase (s : State) (c : FaultCause) (info : Word) : (s.latchFault c info).fontBase = s.fontBase := rfl
@[simp] theorem State.latchFault_v (s : State) (c : FaultCause) (info : Word) : (s.latchFault c info).v = s.v := rfl
@[simp] theorem State.latchFault_idx (s : State) (c : FaultCause) (info : Word) : (s.latchFault c info).idx = s.idx := rfl
@[simp] theorem State.latchFault_pc (s : State) (c : FaultCause) (info : Word) : (s.latchFault c info).pc = s.pc := rfl
@[simp] theorem State.latchFault_stack (s : State) (c : FaultCause) (info : Word) : (s.latchFault c info).stack = s.stack := rfl
@[simp] theorem State.latchFault_sp (s : State) (c : FaultCause) (info : Word) : (s.latchFault c info).sp = s.sp := rfl
@[simp] theorem State.latchFault_dt (s : State) (c : FaultCause) (info : Word) : (s.latchFault c info).dt = s.dt := rfl
@[simp] theorem State.latchFault_st (s : State) (c : FaultCause) (info : Word) : (s.latchFault c info).st = s.st := rfl
@[simp] theorem State.latchFault_disp (s : State) (c : FaultCause) (info : Word) : (s.latchFault c info).disp = s.disp := rfl
@[simp] theorem State.latchFault_mem (s : State) (c : FaultCause) (info : Word) : (s.latchFault c info).mem = s.mem := rfl
@[simp] theorem State.latchFault_fault (s : State) (c : FaultCause) (info : Word) : (s.latchFault c info).fault = ⟨true, c.code, info⟩ := rfl
@[simp] theorem State.latchFault_ports (s : State) (c : FaultCause) (info : Word) : (s.latchFault c info).ports = s.ports := rfl

/-! ### `State.consumeRand` -/

@[simp] theorem State.consumeRand_fontBase (s : State) : (s.consumeRand).fontBase = s.fontBase := rfl
@[simp] theorem State.consumeRand_v (s : State) : (s.consumeRand).v = s.v := rfl
@[simp] theorem State.consumeRand_idx (s : State) : (s.consumeRand).idx = s.idx := rfl
@[simp] theorem State.consumeRand_pc (s : State) : (s.consumeRand).pc = s.pc := rfl
@[simp] theorem State.consumeRand_stack (s : State) : (s.consumeRand).stack = s.stack := rfl
@[simp] theorem State.consumeRand_sp (s : State) : (s.consumeRand).sp = s.sp := rfl
@[simp] theorem State.consumeRand_dt (s : State) : (s.consumeRand).dt = s.dt := rfl
@[simp] theorem State.consumeRand_st (s : State) : (s.consumeRand).st = s.st := rfl
@[simp] theorem State.consumeRand_disp (s : State) : (s.consumeRand).disp = s.disp := rfl
@[simp] theorem State.consumeRand_mem (s : State) : (s.consumeRand).mem = s.mem := rfl
@[simp] theorem State.consumeRand_fault (s : State) : (s.consumeRand).fault = s.fault := rfl
@[simp] theorem State.consumeRand_ports (s : State) : (s.consumeRand).ports = { s.ports with randPlan := s.ports.randPlan.tail, randTurn := s.ports.randTurn + 1 } := rfl

/-! ### `State.hostTurn` -/

@[simp] theorem State.hostTurn_fontBase (s : State) : (s.hostTurn).fontBase = s.fontBase := rfl
@[simp] theorem State.hostTurn_v (s : State) : (s.hostTurn).v = s.v := rfl
@[simp] theorem State.hostTurn_idx (s : State) : (s.hostTurn).idx = s.idx := rfl
@[simp] theorem State.hostTurn_pc (s : State) : (s.hostTurn).pc = s.pc := rfl
@[simp] theorem State.hostTurn_stack (s : State) : (s.hostTurn).stack = s.stack := rfl
@[simp] theorem State.hostTurn_sp (s : State) : (s.hostTurn).sp = s.sp := rfl
@[simp] theorem State.hostTurn_dt (s : State) : (s.hostTurn).dt = s.dt := rfl
@[simp] theorem State.hostTurn_st (s : State) : (s.hostTurn).st = s.st := rfl
@[simp] theorem State.hostTurn_disp (s : State) : (s.hostTurn).disp = s.disp := rfl
@[simp] theorem State.hostTurn_mem (s : State) : (s.hostTurn).mem = s.mem := rfl
@[simp] theorem State.hostTurn_fault (s : State) : (s.hostTurn).fault = s.fault := rfl
@[simp] theorem State.hostTurn_ports (s : State) : (s.hostTurn).ports = { s.ports with
        keys := s.ports.keyPlan.headD (Config.keyDrive s.ports.keyTurn)
        keyPlan := s.ports.keyPlan.tail
        keyTurn := s.ports.keyTurn + 1 } := rfl

/-! ### `State.writeBytes` -/

@[simp] theorem State.writeBytes_fontBase (s : State) (a : Nat) (bs : List Byte) : (s.writeBytes a bs).fontBase = s.fontBase := rfl
@[simp] theorem State.writeBytes_v (s : State) (a : Nat) (bs : List Byte) : (s.writeBytes a bs).v = s.v := rfl
@[simp] theorem State.writeBytes_idx (s : State) (a : Nat) (bs : List Byte) : (s.writeBytes a bs).idx = s.idx := rfl
@[simp] theorem State.writeBytes_pc (s : State) (a : Nat) (bs : List Byte) : (s.writeBytes a bs).pc = s.pc := rfl
@[simp] theorem State.writeBytes_stack (s : State) (a : Nat) (bs : List Byte) : (s.writeBytes a bs).stack = s.stack := rfl
@[simp] theorem State.writeBytes_sp (s : State) (a : Nat) (bs : List Byte) : (s.writeBytes a bs).sp = s.sp := rfl
@[simp] theorem State.writeBytes_dt (s : State) (a : Nat) (bs : List Byte) : (s.writeBytes a bs).dt = s.dt := rfl
@[simp] theorem State.writeBytes_st (s : State) (a : Nat) (bs : List Byte) : (s.writeBytes a bs).st = s.st := rfl
@[simp] theorem State.writeBytes_disp (s : State) (a : Nat) (bs : List Byte) : (s.writeBytes a bs).disp = s.disp := rfl
@[simp] theorem State.writeBytes_mem (s : State) (a : Nat) (bs : List Byte) : (s.writeBytes a bs).mem = s.mem.writeList s.fontBase a bs := rfl
@[simp] theorem State.writeBytes_fault (s : State) (a : Nat) (bs : List Byte) : (s.writeBytes a bs).fault = s.fault := rfl
@[simp] theorem State.writeBytes_ports (s : State) (a : Nat) (bs : List Byte) : (s.writeBytes a bs).ports = s.ports := rfl

/-! ### `State.closeLoad` -/

@[simp] theorem State.closeLoad_fontBase (s : State) : (s.closeLoad).fontBase = s.fontBase := rfl
@[simp] theorem State.closeLoad_v (s : State) : (s.closeLoad).v = s.v := rfl
@[simp] theorem State.closeLoad_idx (s : State) : (s.closeLoad).idx = s.idx := rfl
@[simp] theorem State.closeLoad_pc (s : State) : (s.closeLoad).pc = s.pc := rfl
@[simp] theorem State.closeLoad_stack (s : State) : (s.closeLoad).stack = s.stack := rfl
@[simp] theorem State.closeLoad_sp (s : State) : (s.closeLoad).sp = s.sp := rfl
@[simp] theorem State.closeLoad_dt (s : State) : (s.closeLoad).dt = s.dt := rfl
@[simp] theorem State.closeLoad_st (s : State) : (s.closeLoad).st = s.st := rfl
@[simp] theorem State.closeLoad_disp (s : State) : (s.closeLoad).disp = s.disp := rfl
@[simp] theorem State.closeLoad_mem (s : State) : (s.closeLoad).mem = s.mem := rfl
@[simp] theorem State.closeLoad_fault (s : State) : (s.closeLoad).fault = s.fault := rfl
@[simp] theorem State.closeLoad_ports (s : State) : (s.closeLoad).ports = { s.ports with loadOpen := false } := rfl

/-! ### `State.advance` -/

@[simp] theorem State.advance_fontBase (s : State) : (s.advance).fontBase = s.fontBase := rfl
@[simp] theorem State.advance_v (s : State) : (s.advance).v = s.v := rfl
@[simp] theorem State.advance_idx (s : State) : (s.advance).idx = s.idx := rfl
@[simp] theorem State.advance_pc (s : State) : (s.advance).pc = s.pc + 2 := rfl
@[simp] theorem State.advance_stack (s : State) : (s.advance).stack = s.stack := rfl
@[simp] theorem State.advance_sp (s : State) : (s.advance).sp = s.sp := rfl
@[simp] theorem State.advance_dt (s : State) : (s.advance).dt = s.dt := rfl
@[simp] theorem State.advance_st (s : State) : (s.advance).st = s.st := rfl
@[simp] theorem State.advance_disp (s : State) : (s.advance).disp = s.disp := rfl
@[simp] theorem State.advance_mem (s : State) : (s.advance).mem = s.mem := rfl
@[simp] theorem State.advance_fault (s : State) : (s.advance).fault = s.fault := rfl
@[simp] theorem State.advance_ports (s : State) : (s.advance).ports = s.ports := rfl

/-! ### `State.tick` -/

@[simp] theorem State.tick_fontBase (s : State) : (s.tick).fontBase = s.fontBase := rfl
@[simp] theorem State.tick_v (s : State) : (s.tick).v = s.v := rfl
@[simp] theorem State.tick_idx (s : State) : (s.tick).idx = s.idx := rfl
@[simp] theorem State.tick_pc (s : State) : (s.tick).pc = s.pc := rfl
@[simp] theorem State.tick_stack (s : State) : (s.tick).stack = s.stack := rfl
@[simp] theorem State.tick_sp (s : State) : (s.tick).sp = s.sp := rfl
@[simp] theorem State.tick_dt (s : State) : (s.tick).dt = tickTimer s.dt := rfl
@[simp] theorem State.tick_st (s : State) : (s.tick).st = tickTimer s.st := rfl
@[simp] theorem State.tick_disp (s : State) : (s.tick).disp = s.disp := rfl
@[simp] theorem State.tick_mem (s : State) : (s.tick).mem = s.mem := rfl
@[simp] theorem State.tick_fault (s : State) : (s.tick).fault = s.fault := rfl
@[simp] theorem State.tick_ports (s : State) : (s.tick).ports = s.ports := rfl

/-! ### Reading a register -/

/-- Reading after a write: the written register holds the byte, every other one what it held. -/
@[simp] theorem State.reg_setReg (s : State) (x y : RegIdx) (b : Byte) :
    (s.setReg x b).reg y = if y = x then b else s.reg y := by
  simp [State.reg, Vector.getElem_set, Fin.ext_iff, eq_comm]

/-- R100: the destination holds the result; VF, where it is not the destination, holds the flag. -/
@[simp] theorem State.reg_setFlagThenReg (s : State) (f : Byte) (x y : RegIdx) (b : Byte) :
    (s.setFlagThenReg f x b).reg y = if y = x then b else if y = vf then f else s.reg y := by
  simp [State.setFlagThenReg]

/-- R165: the registers the block has a byte for take it. -/
@[simp] theorem State.reg_setRegBlock (s : State) (bs : List Byte) (y : RegIdx) :
    (s.setRegBlock bs).reg y = bs.getD y.val (s.reg y) := by
  simp [State.reg]

/-- A register of a state depends on the register file alone. -/
theorem State.reg_congr {s t : State} (h : t.v = s.v) (x : RegIdx) : t.reg x = s.reg x := by
  simp [State.reg, h]

/-- An update of any field but the register file leaves the registers as they were. -/
@[simp] theorem State.reg_update (s : State) (base : FontBase) (idx pc : Word) (stack : Vector Word 16)
    (sp : Fin 17) (dt st : Byte) (disp : Display) (mem : Memory) (fault : FaultLatch)
    (ports : Ports) (x : RegIdx) :
    State.reg ⟨base, s.v, idx, pc, stack, sp, dt, st, disp, mem, fault, ports⟩ x = s.reg x := rfl

@[simp] theorem State.reg_latchFault (s : State) (c : FaultCause) (info : Word) (x : RegIdx) : (s.latchFault c info).reg x = s.reg x := rfl
@[simp] theorem State.reg_consumeRand (s : State) (x : RegIdx) : (s.consumeRand).reg x = s.reg x := rfl
@[simp] theorem State.reg_hostTurn (s : State) (x : RegIdx) : (s.hostTurn).reg x = s.reg x := rfl
@[simp] theorem State.reg_writeBytes (s : State) (a : Nat) (bs : List Byte) (x : RegIdx) : (s.writeBytes a bs).reg x = s.reg x := rfl
@[simp] theorem State.reg_closeLoad (s : State) (x : RegIdx) : (s.closeLoad).reg x = s.reg x := rfl
@[simp] theorem State.reg_advance (s : State) (x : RegIdx) : (s.advance).reg x = s.reg x := rfl
@[simp] theorem State.reg_tick (s : State) (x : RegIdx) : (s.tick).reg x = s.reg x := rfl

/-! ### Reading a byte of memory -/

/-- A byte of a state depends on FONT_BASE and memory alone. -/
theorem State.byte_congr {s t : State} (hb : t.fontBase = s.fontBase) (hm : t.mem = s.mem) (a : Nat) :
    t.byte a = s.byte a := by
  simp [State.byte, hb, hm]

/-- An update of any field but FONT_BASE and memory leaves every byte as it was. -/
@[simp] theorem State.byte_update (s : State) (v : Vector Byte 16) (idx pc : Word) (stack : Vector Word 16)
    (sp : Fin 17) (dt st : Byte) (disp : Display) (fault : FaultLatch) (ports : Ports) (a : Nat) :
    State.byte ⟨s.fontBase, v, idx, pc, stack, sp, dt, st, disp, s.mem, fault, ports⟩ a = s.byte a := rfl

@[simp] theorem State.byte_setReg (s : State) (x : RegIdx) (b : Byte) (a : Nat) : (s.setReg x b).byte a = s.byte a := rfl
@[simp] theorem State.byte_latchFault (s : State) (c : FaultCause) (info : Word) (a : Nat) : (s.latchFault c info).byte a = s.byte a := rfl
@[simp] theorem State.byte_hostTurn (s : State) (a : Nat) : (s.hostTurn).byte a = s.byte a := rfl
@[simp] theorem State.byte_closeLoad (s : State) (a : Nat) : (s.closeLoad).byte a = s.byte a := rfl
@[simp] theorem State.byte_advance (s : State) (a : Nat) : (s.advance).byte a = s.byte a := rfl
@[simp] theorem State.byte_tick (s : State) (a : Nat) : (s.tick).byte a = s.byte a := rfl

end Sys2Proof.Machine
end

