-- ==== Sys2Proof/Laws/Ops.lean ====
section
/-! SUPPORT. Laws/Ops.lean: what each shared operation can do, said once: the memory accesses, the call stack, the fault entry,
the skip, the key scan, the timers, the load, and the parts of a cycle. Later proofs cite these and do not unfold the operations. -/

namespace Sys2Proof.Machine

/-! ### Memory accesses (R34, R35) -/

/-- A multi-byte read is as long as asked for. -/
@[simp] theorem State.length_bytes (s : State) (a n : Nat) : (s.bytes a n).length = n :=
  Memory.length_readList s.fontBase s.mem a n

/-- Element `j` of a multi-byte read is the byte at `a + j`. -/
@[simp] theorem State.getElem?_bytes (s : State) (a n j : Nat) :
    (s.bytes a n)[j]? = if j < n then some (s.byte (a + j)) else none :=
  Memory.getElem?_readList s.fontBase s.mem a n j

/-- The same with a default. -/
theorem State.getD_bytes (s : State) (a n j : Nat) (d : Byte) :
    (s.bytes a n).getD j d = if j < n then s.byte (a + j) else d :=
  Memory.getD_readList s.fontBase s.mem a n j d

/-- A multi-byte write inside memory keeps the canonical form. -/
theorem State.memWf_writeBytes {s : State} {a : Nat} {bs : List Byte} (h : s.memWf = true)
    (ha : a + bs.length ≤ 4096) : (s.writeBytes a bs).memWf = true :=
  Memory.wf_writeList h ha

/-- A multi-byte write puts byte `j` at `a + j` and changes no other address. -/
theorem State.byte_writeBytes {s : State} {a : Nat} {bs : List Byte} (h : s.memWf = true)
    (ha : a + bs.length ≤ 4096) (k : Nat) :
    (s.writeBytes a bs).byte k = if a ≤ k ∧ k < a + bs.length then bs.getD (k - a) 0 else s.byte k :=
  Memory.read_writeList h ha k

/-- `MemRead` answers the bytes exactly when the access is in range. -/
theorem State.memRead_eq (s : State) (addr : Word) (n : Nat) :
    s.memRead addr n =
      if n = 0 ∨ addr.toNat + n ≤ 4096 then some (s.bytes addr.toNat n) else none := by
  simp only [State.memRead, accessInRange_iff]

/-- `MemWrite` answers the written state exactly when the access is in range. -/
theorem State.memWrite_eq (s : State) (addr : Word) (bs : List Byte) :
    s.memWrite addr bs =
      if bs.length = 0 ∨ addr.toNat + bs.length ≤ 4096
      then some (s.writeBytes addr.toNat bs) else none := by
  simp only [State.memWrite, accessInRange_iff]

/-- The block of a store is `V[0]` to `V[x]`. -/
@[simp] theorem State.length_regBlock (s : State) (x : RegIdx) : (s.regBlock x).length = x.val + 1 := by
  simp [State.regBlock]

/-- Byte `j` of the block of a store is `V[j]`. -/
theorem State.getD_regBlock (s : State) (x r : RegIdx) (h : r.val ≤ x.val) (d : Byte) :
    (s.regBlock x).getD r.val d = s.reg r := by
  have hr : r.val < x.val + 1 := by omega
  simp [State.regBlock, State.reg, List.getD_eq_getElem?_getD, hr]

/-! ### The fault entry (R183) -/

/-- A fault of the execute step is a next state: the state before the fetch advance, with the latch set. -/
theorem raise_eq (c : FaultCause) (info : Word) (s : State) :
    raise c info s = .next { s with pc := s.pc - 2, fault := ⟨true, c.code, info⟩ } := rfl

/-- The fetch advance undone. -/
@[simp] theorem pc_add_sub (pc : Word) : pc + 2 - 2 = pc := by
  simp

/-- A fault raised after the fetch advance leaves the state before the cycle, with the latch set. -/
theorem raise_advance (c : FaultCause) (info : Word) (s : State) :
    raise c info s.advance = .next { s with fault := ⟨true, c.code, info⟩ } := by
  simp [raise_eq, State.advance]

/-! ### The call stack (R15) -/

/-- A push below the limit writes the entry at `SP` and increments `SP`. -/
theorem State.push_of_lt (s : State) (value : Word) (h : s.sp.val < 16) :
    s.push value = some { s with stack := s.stack.set s.sp.val value h, sp := ⟨s.sp.val + 1, by omega⟩ } := by
  simp [State.push, h]

/-- A push on a full stack overflows. -/
theorem State.push_of_full (s : State) (value : Word) (h : s.sp.val = 16) : s.push value = none := by
  simp [State.push, h]

/-- A pop of a stack that holds an entry answers the entry below `SP` and decrements `SP`. -/
theorem State.pop_of_pos (s : State) (h : 0 < s.sp.val) :
    s.pop = some (s.stack[s.sp.val - 1], { s with sp := ⟨s.sp.val - 1, by omega⟩ }) := by
  obtain ⟨base, v, idx, pc, stack, ⟨n, hn⟩, dt, st, disp, mem, fault, ports⟩ := s
  cases n with
  | zero => simp at h
  | succ n => rfl

/-- A pop of an empty stack underflows. -/
theorem State.pop_of_empty (s : State) (h : s.sp.val = 0) : s.pop = none := by
  obtain ⟨base, v, idx, pc, stack, ⟨n, hn⟩, dt, st, disp, mem, fault, ports⟩ := s
  cases n with
  | zero => rfl
  | succ n => simp at h

/-! ### The skip (R74 to R77) -/

/-- A skip writes `PC` alone. -/
theorem skipIf_eq (c : Bool) (s : State) : skipIf c s = { s with pc := if c then s.pc + 2 else s.pc } := by
  cases c <;> rfl

/-! ### The key scan (R143) -/

/-- The scan finds no key exactly when no line is 1. -/
theorem lowestKey_eq_none (keys : BitVec 16) : lowestKey keys = none ↔ keys = 0 := by
  simp only [lowestKey, List.find?_eq_none, List.mem_finRange, true_implies]
  constructor
  · intro h
    apply BitVec.eq_of_getLsbD_eq
    intro i hi
    simpa using h ⟨i, hi⟩
  · rintro rfl k
    simp

/-- The scan finds a key whose line is 1, and every line below it is 0. -/
theorem lowestKey_eq_some {keys : BitVec 16} {k : Fin 16} (h : lowestKey keys = some k) :
    keys.getLsbD k.val = true ∧ ∀ j : Fin 16, j.val < k.val → keys.getLsbD j.val = false := by
  refine ⟨by simpa using List.find?_some h, fun j hj => ?_⟩
  rw [lowestKey, List.find?_eq_some_iff_getElem] at h
  obtain ⟨-, i, hi, hik, hlt⟩ := h
  have hi' : i = k.val := by simpa [Fin.ext_iff] using hik
  simpa using hlt j.val (by omega)

/-! ### Timers (R154) -/

/-- The tick is one less, and stops at 0. -/
theorem toNat_tickTimer (t : Byte) : (tickTimer t).toNat = t.toNat - 1 := by
  unfold tickTimer
  split
  · subst_vars; rfl
  · bv_omega

/-! ### The random port (R121) -/

/-- A lined-up byte is the one drawn. -/
theorem State.randInput_cons {s : State} {b : Byte} {bs : List Byte} (h : s.ports.randPlan = b :: bs) :
    s.randInput = b := by
  simp [State.randInput, h]

/-! ### The load (R42, R43) -/

/-- The load port of a state that has closed it. -/
@[simp] theorem State.load_closeLoad (s : State) (img : List Byte) : s.closeLoad.load img = .refused := rfl

/-- A closed load port refuses every image. -/
theorem State.load_of_closed {s : State} (h : s.ports.loadOpen = false) (img : List Byte) : s.load img = .refused := by
  simp [State.load, h]

/-- What a load can do: refused where the port is closed; else the image written, or nothing written and
`CapacityExceeded`, and the port closed. -/
theorem State.load_cases (s : State) (img : List Byte) :
    (s.ports.loadOpen = false ∧ s.load img = .refused) ∨
      (s.ports.loadOpen = true ∧ img.length ≤ 3584 ∧ s.load img = .loaded (s.writeBytes 0x200 img).closeLoad) ∨
      (s.ports.loadOpen = true ∧ 3584 < img.length ∧ s.load img = .capacityExceeded s.closeLoad) := by
  cases h : s.ports.loadOpen
  · exact Or.inl ⟨rfl, State.load_of_closed h img⟩
  · by_cases hl : img.length ≤ 3584
    · exact Or.inr (Or.inl ⟨rfl, hl, by simp [State.load, imageFits, h, hl]⟩)
    · exact Or.inr (Or.inr ⟨rfl, by omega, by simp [State.load, imageFits, h, hl]⟩)

/-! ### Display cells (R17) -/

/-- Toggling a cell of the display flips it and no other. -/
theorem Display.cell_toggle (d : Display) {px py : Nat} (hx : px < 64) (hy : py < 32) (qx qy : Nat) :
    (d.toggle px py).cell qx qy = (d.cell qx qy ^^ (decide (qx = px) && decide (qy = py))) := by
  unfold Display.toggle Display.cell
  by_cases hqy : qy < 32
  · by_cases h : qy = py
    · subst h
      simp [hqy, BitVec.getLsbD_xor, BitVec.getLsbD_twoPow, hx, eq_comm]
    · have h' : ¬py = qy := fun e => h e.symm
      simp [hqy, hy, h, h']
  · have h : ¬qy = py := by omega
    simp [hqy, h]

/-- Two displays with the same 2048 cells are equal. -/
theorem Display.ext_cells {d e : Display} (h : ∀ px py, px < 64 → py < 32 → d.cell px py = e.cell px py) : d = e := by
  apply Vector.ext
  intro py hpy
  apply BitVec.eq_of_getLsbD_eq
  intro px hpx
  have := h px py hpx hpy
  simpa [Display.cell, hpy] using this

/-- A cell outside the display reads as off. -/
theorem Display.cell_outside (d : Display) {px py : Nat} (h : 64 ≤ px ∨ 32 ≤ py) : d.cell px py = false := by
  unfold Display.cell
  split
  · exact BitVec.getLsbD_of_ge _ _ (by omega)
  · rfl

/-! ### A cycle (R20) -/

/-- The fetch answers the word at `PC` exactly when `PC` is at most 0xFFE (R36). -/
theorem State.fetch_of_le {s : State} (h : s.pc.toNat ≤ 0xFFE) :
    s.fetch = some (wordOfBytes (s.byte s.pc.toNat) (s.byte (s.pc.toNat + 1))) := by
  simp [State.fetch, h]

/-- Past 0xFFE there is no fetch. -/
theorem State.fetch_of_gt {s : State} (h : 0xFFE < s.pc.toNat) : s.fetch = none := by
  have hn : ¬s.pc.toNat ≤ 0xFFE := by omega
  simp [State.fetch, hn]

/-- A fetch that answers started at an address of at most 0xFFE. -/
theorem State.pc_le_of_fetch {s : State} {w : Word} (h : s.fetch = some w) : s.pc.toNat ≤ 0xFFE := by
  by_contra hn
  rw [State.fetch_of_gt (by omega)] at h
  cases h

end Sys2Proof.Machine
end

