-- ==== Sys2Proof/Laws/PerInstr.lean ====
section
/-! SUPPORT. Laws/PerInstr.lean: the family CanonicalWord: the word an assembler emits for an instruction is a canonical word
(spec/30_encoding.md R62, R65), one lemma per constructor. -/

namespace Sys2Proof

/-- A word of a group whose every bit is a field is canonical. -/
theorem canonicalWord_of_op {w : Word} {op : Nibble} (h : fieldOp w = op)
    (hop : op ∈ [0x1#4, 0x2#4, 0x3#4, 0x4#4, 0x6#4, 0x7#4, 0xA#4, 0xB#4, 0xC#4, 0xD#4]) : canonicalWord w = true := by
  have h' : w.extractLsb' 12 4 = op := h
  unfold canonicalWord
  rw [h']
  simp only [List.mem_cons, List.not_mem_nil, or_false] at hop
  rcases hop with rfl | rfl | rfl | rfl | rfl | rfl | rfl | rfl | rfl | rfl <;> rfl

end Sys2Proof

namespace Sys2Proof.Laws.CanonicalWord

/-- The encoder emits a canonical word for the instruction. -/
def Statement (i : Instr) : Prop := canonicalWord (encode i) = true

theorem cls : Statement .cls := by
  unfold Statement
  decide

theorem ret : Statement .ret := by
  unfold Statement
  decide

theorem jp (nnn : Addr12) : Statement (.jp nnn) :=
  canonicalWord_of_op (fieldOp_packNNN _ nnn) (by decide)

theorem call (nnn : Addr12) : Statement (.call nnn) :=
  canonicalWord_of_op (fieldOp_packNNN _ nnn) (by decide)

theorem seImm (x : RegIdx) (kk : Byte) : Statement (.seImm x kk) :=
  canonicalWord_of_op (fieldOp_packXKK _ x kk) (by decide)

theorem sneImm (x : RegIdx) (kk : Byte) : Statement (.sneImm x kk) :=
  canonicalWord_of_op (fieldOp_packXKK _ x kk) (by decide)

theorem seReg (x y : RegIdx) : Statement (.seReg x y) := by
  unfold Statement
  revert x y
  decide

theorem ldImm (x : RegIdx) (kk : Byte) : Statement (.ldImm x kk) :=
  canonicalWord_of_op (fieldOp_packXKK _ x kk) (by decide)

theorem addImm (x : RegIdx) (kk : Byte) : Statement (.addImm x kk) :=
  canonicalWord_of_op (fieldOp_packXKK _ x kk) (by decide)

theorem ldReg (x y : RegIdx) : Statement (.ldReg x y) := by
  unfold Statement
  revert x y
  decide

theorem orReg (x y : RegIdx) : Statement (.orReg x y) := by
  unfold Statement
  revert x y
  decide

theorem andReg (x y : RegIdx) : Statement (.andReg x y) := by
  unfold Statement
  revert x y
  decide

theorem xorReg (x y : RegIdx) : Statement (.xorReg x y) := by
  unfold Statement
  revert x y
  decide

theorem addReg (x y : RegIdx) : Statement (.addReg x y) := by
  unfold Statement
  revert x y
  decide

theorem subReg (x y : RegIdx) : Statement (.subReg x y) := by
  unfold Statement
  revert x y
  decide

theorem shr (x : RegIdx) : Statement (.shr x) := by
  unfold Statement
  revert x
  decide

theorem subnReg (x y : RegIdx) : Statement (.subnReg x y) := by
  unfold Statement
  revert x y
  decide

theorem shl (x : RegIdx) : Statement (.shl x) := by
  unfold Statement
  revert x
  decide

theorem sneReg (x y : RegIdx) : Statement (.sneReg x y) := by
  unfold Statement
  revert x y
  decide

theorem ldI (nnn : Addr12) : Statement (.ldI nnn) :=
  canonicalWord_of_op (fieldOp_packNNN _ nnn) (by decide)

theorem jpV0 (nnn : Addr12) : Statement (.jpV0 nnn) :=
  canonicalWord_of_op (fieldOp_packNNN _ nnn) (by decide)

theorem rnd (x : RegIdx) (kk : Byte) : Statement (.rnd x kk) :=
  canonicalWord_of_op (fieldOp_packXKK _ x kk) (by decide)

theorem drw (x y : RegIdx) (n : Nibble) : Statement (.drw x y n) :=
  canonicalWord_of_op (fieldOp_packXYN _ x y n) (by decide)

theorem skp (x : RegIdx) : Statement (.skp x) := by
  unfold Statement
  revert x
  decide

theorem sknp (x : RegIdx) : Statement (.sknp x) := by
  unfold Statement
  revert x
  decide

theorem ldVxDt (x : RegIdx) : Statement (.ldVxDt x) := by
  unfold Statement
  revert x
  decide

theorem ldVxK (x : RegIdx) : Statement (.ldVxK x) := by
  unfold Statement
  revert x
  decide

theorem ldDtVx (x : RegIdx) : Statement (.ldDtVx x) := by
  unfold Statement
  revert x
  decide

theorem ldStVx (x : RegIdx) : Statement (.ldStVx x) := by
  unfold Statement
  revert x
  decide

theorem addI (x : RegIdx) : Statement (.addI x) := by
  unfold Statement
  revert x
  decide

theorem ldF (x : RegIdx) : Statement (.ldF x) := by
  unfold Statement
  revert x
  decide

theorem ldB (x : RegIdx) : Statement (.ldB x) := by
  unfold Statement
  revert x
  decide

theorem stRegs (x : RegIdx) : Statement (.stRegs x) := by
  unfold Statement
  revert x
  decide

theorem ldRegs (x : RegIdx) : Statement (.ldRegs x) := by
  unfold Statement
  revert x
  decide

theorem nop : Statement .nop := by
  unfold Statement
  decide

end Sys2Proof.Laws.CanonicalWord
end

