-- ==== Sys2Proof/Laws/Screen.lean ====
section
/-! SUPPORT. Laws/Screen.lean: the sprite engine, pixel by pixel, does what the closed form `spriteCovers` says: every covered cell
of the display is toggled, no other, and the collision is that some covered cell was on. -/

namespace Sys2Proof.Machine

/-- A pixel that is drawn is one toggled cell. -/
theorem cell_drawPixel (px py : Nat) (bit : Bool) (d : Display × Bool) (qx qy : Nat) (hqx : qx < 64) (hqy : qy < 32) :
    (drawPixel px py bit d).1.cell qx qy = (d.1.cell qx qy ^^ (bit && decide (qx = px) && decide (qy = py))) := by
  unfold drawPixel
  split
  · rename_i h
    simp only [Bool.and_eq_true, decide_eq_true_eq] at h
    rw [Display.cell_toggle d.1 h.1.2 h.2]
    simp [h.1.1]
  · rename_i h
    simp only [Bool.and_eq_true, decide_eq_true_eq, not_and] at h
    by_cases hb : bit = true
    · by_cases hx : qx = px
      · by_cases hy : qy = py
        · subst hx hy
          exact absurd hqy (h ⟨hb, hqx⟩)
        · simp [hy]
      · simp [hx]
    · simp [hb]

/-- A pixel collides when it is drawn on a cell that is on. -/
theorem hit_drawPixel (px py : Nat) (bit : Bool) (d : Display × Bool) :
    (drawPixel px py bit d).2 = (d.2 || (bit && d.1.cell px py)) := by
  unfold drawPixel
  split
  · rename_i h
    simp only [Bool.and_eq_true, decide_eq_true_eq] at h
    simp [h.1.1]
  · rename_i h
    simp only [Bool.and_eq_true, decide_eq_true_eq, not_and] at h
    by_cases hb : bit = true
    · have hout : 64 ≤ px ∨ 32 ≤ py := by
        by_cases hx : px < 64
        · exact Or.inr (by simpa using h ⟨hb, hx⟩)
        · exact Or.inl (by simpa using hx)
      simp [Display.cell_outside d.1 hout]
    · simp [hb]

/-- The cells covered by the `k` leftmost pixels of one sprite row at row `py`. -/
def rowCovers (x0 py : Nat) (row : Byte) (k px qy : Nat) : Bool :=
  decide (x0 ≤ px) && decide (px < x0 + k) && decide (qy = py) && row.getLsbD (7 - (px - x0))

/-- A row of a sprite toggles the cells it covers. -/
theorem cell_drawRow (x0 py : Nat) (row : Byte) (k : Nat) (d : Display × Bool) (qx qy : Nat) (hqx : qx < 64)
    (hqy : qy < 32) :
    (drawRow x0 py row k d).1.cell qx qy = (d.1.cell qx qy ^^ rowCovers x0 py row k qx qy) := by
  induction k with
  | zero =>
    have h : (decide (x0 ≤ qx) && decide (qx < x0 + 0)) = false := by
      simp only [Bool.and_eq_false_iff, decide_eq_false_iff_not]
      omega
    simp only [drawRow, rowCovers, h, Bool.false_and, Bool.xor_false]
  | succ k ih =>
    simp only [drawRow, cell_drawPixel _ _ _ _ _ _ hqx hqy, ih, rowCovers]
    by_cases hy : qy = py
    · by_cases hx : qx = x0 + k
      · subst hx
        have h1 : ¬(x0 + k < x0 + k) := by omega
        have h2 : x0 + k < x0 + (k + 1) := by omega
        have h3 : x0 + k - x0 = k := by omega
        simp [hy, h3]
      · have h1 : (qx < x0 + (k + 1)) ↔ (qx < x0 + k) := by omega
        simp [hx, h1]
    · simp [hy]

/-- A row of a sprite collides when some cell it covers was on before the row. -/
theorem hit_drawRow (x0 py : Nat) (row : Byte) (k : Nat) (d : Display × Bool) :
    (drawRow x0 py row k d).2 = true ↔
      d.2 = true ∨ ∃ px, rowCovers x0 py row k px py = true ∧ d.1.cell px py = true := by
  induction k with
  | zero =>
    simp only [drawRow, rowCovers, Nat.add_zero, Bool.and_eq_true, decide_eq_true_eq]
    constructor
    · exact Or.inl
    · rintro (h | ⟨px, h, -⟩)
      · exact h
      · omega
  | succ k ih =>
    simp only [drawRow, hit_drawPixel, Bool.or_eq_true, Bool.and_eq_true, ih]
    have hsame : (drawRow x0 py row k d).1.cell (x0 + k) py = d.1.cell (x0 + k) py := by
      by_cases hout : 64 ≤ x0 + k ∨ 32 ≤ py
      · rw [Display.cell_outside _ hout, Display.cell_outside _ hout]
      · rw [cell_drawRow _ _ _ _ _ _ _ (by omega) (by omega)]
        simp [rowCovers]
    rw [hsame]
    simp only [rowCovers, Bool.and_eq_true, decide_eq_true_eq]
    constructor
    · rintro ((h | ⟨px, hc, hd⟩) | ⟨hb, hd⟩)
      · exact Or.inl h
      · exact Or.inr ⟨px, ⟨⟨⟨hc.1.1.1, by omega⟩, hc.1.2⟩, hc.2⟩, hd⟩
      · have h3 : x0 + k - x0 = k := by omega
        exact Or.inr ⟨x0 + k, ⟨⟨⟨by omega, by omega⟩, trivial⟩, by rw [h3]; exact hb⟩, hd⟩
    · rintro (h | ⟨px, hc, hd⟩)
      · exact Or.inl (Or.inl h)
      · by_cases hx : px = x0 + k
        · subst hx
          have h3 : x0 + k - x0 = k := by omega
          rw [h3] at hc
          exact Or.inr ⟨hc.2, hd⟩
        · exact Or.inl (Or.inr ⟨px, ⟨⟨⟨hc.1.1.1, by omega⟩, hc.1.2⟩, hc.2⟩, hd⟩)

/-- The first row of a sprite and the rest of it cover what the whole covers. -/
theorem spriteCovers_cons (x0 y0 : Nat) (row : Byte) (rows : List Byte) (px py : Nat) :
    spriteCovers x0 y0 (row :: rows) px py =
      (rowCovers x0 y0 row 8 px py ^^ spriteCovers x0 (y0 + 1) rows px py) := by
  unfold spriteCovers rowCovers
  by_cases hy : py = y0
  · subst hy
    have h1 : ¬(py + 1 ≤ py) := by omega
    simp
  · by_cases hlt : y0 + 1 ≤ py
    · obtain ⟨e, rfl⟩ : ∃ e, py = y0 + 1 + e := ⟨py - (y0 + 1), by omega⟩
      have h1 : y0 + 1 + e - y0 = e + 1 := by omega
      have h2 : y0 + 1 + e - (y0 + 1) = e := by omega
      have h3 : y0 ≤ y0 + 1 + e := by omega
      have h4 : (y0 + 1 + e < y0 + (rows.length + 1)) ↔ (e < rows.length) := by omega
      have h5 : (y0 + 1 + e < y0 + 1 + rows.length) ↔ (e < rows.length) := by omega
      simp only [hy, h1, h2, h3, List.length_cons, h4, h5, List.getD_cons_succ, decide_true, decide_false,
        Bool.and_true, Bool.and_false, Bool.false_and, Bool.false_bne, hlt]
    · have h0 : ¬y0 ≤ py := by omega
      simp [hy, h0, hlt]

/-- The first row and the rest of a sprite cover no cell twice: "cells within one `DRW` are all distinct" (R126). -/
theorem spriteCovers_row_disjoint (x0 y0 : Nat) (row : Byte) (rows : List Byte) (px py : Nat)
    (h : rowCovers x0 y0 row 8 px py = true) : spriteCovers x0 (y0 + 1) rows px py = false := by
  simp only [rowCovers, Bool.and_eq_true, decide_eq_true_eq] at h
  have h1 : ¬(y0 + 1 ≤ py) := by omega
  simp [spriteCovers, h1]

/-- The rows of a sprite toggle the cells the sprite covers. -/
theorem cell_drawRows (x0 y0 : Nat) (rows : List Byte) (d : Display × Bool) (qx qy : Nat) (hqx : qx < 64)
    (hqy : qy < 32) :
    (drawRows x0 y0 rows d).1.cell qx qy = (d.1.cell qx qy ^^ spriteCovers x0 y0 rows qx qy) := by
  induction rows generalizing y0 d with
  | nil => simp [drawRows, spriteCovers]
  | cons row rows ih =>
    simp only [drawRows, ih, cell_drawRow _ _ _ _ _ _ _ hqx hqy, spriteCovers_cons, Bool.xor_assoc]

/-- The rows of a sprite collide when some cell the sprite covers was on. -/
theorem hit_drawRows (x0 y0 : Nat) (rows : List Byte) (d : Display × Bool) :
    (drawRows x0 y0 rows d).2 = true ↔
      d.2 = true ∨ ∃ px py, spriteCovers x0 y0 rows px py = true ∧ d.1.cell px py = true := by
  induction rows generalizing y0 d with
  | nil =>
    simp only [drawRows, spriteCovers, List.length_nil, Nat.add_zero, Bool.and_eq_true, decide_eq_true_eq]
    constructor
    · exact Or.inl
    · rintro (h | ⟨px, py, h, -⟩)
      · exact h
      · omega
  | cons row rows ih =>
    simp only [drawRows, ih, hit_drawRow, spriteCovers_cons]
    constructor
    · rintro ((h | ⟨px, hc, hd⟩) | ⟨px, py, hc, hd⟩)
      · exact Or.inl h
      · refine Or.inr ⟨px, y0, ?_, hd⟩
        simp [hc, spriteCovers_row_disjoint _ _ _ _ _ _ hc]
      · by_cases hin : px < 64 ∧ py < 32
        · rw [cell_drawRow _ _ _ _ _ _ _ hin.1 hin.2] at hd
          have hr : rowCovers x0 y0 row 8 px py = false := by
            by_contra hn
            rw [spriteCovers_row_disjoint _ _ _ _ _ _ (by simpa using hn)] at hc
            cases hc
          rw [hr] at hd
          exact Or.inr ⟨px, py, by simp [hr, hc], by simpa using hd⟩
        · rw [Display.cell_outside _ (by omega)] at hd
          cases hd
    · rintro (h | ⟨px, py, hc, hd⟩)
      · exact Or.inl (Or.inl h)
      · by_cases hr : rowCovers x0 y0 row 8 px py = true
        · have hy : py = y0 := by
            simp only [rowCovers, Bool.and_eq_true, decide_eq_true_eq] at hr
            exact hr.1.2
          subst hy
          exact Or.inl (Or.inr ⟨px, hr, hd⟩)
        · have hr' : rowCovers x0 y0 row 8 px py = false := by simpa using hr
          refine Or.inr ⟨px, py, by simpa [hr'] using hc, ?_⟩
          have hin : px < 64 ∧ py < 32 := by
            by_contra hn
            rw [Display.cell_outside _ (by omega)] at hd
            cases hd
          rw [cell_drawRow _ _ _ _ _ _ _ hin.1 hin.2, hr']
          simpa using hd

/-- The sprite engine toggles exactly the covered cells of the display. -/
theorem cell_drawSprite (x0 y0 : Nat) (rows : List Byte) (d : Display) (qx qy : Nat) (hqx : qx < 64) (hqy : qy < 32) :
    (drawSprite x0 y0 rows d).1.cell qx qy = (d.cell qx qy ^^ spriteCovers x0 y0 rows qx qy) :=
  cell_drawRows x0 y0 rows (d, false) qx qy hqx hqy

/-- The sprite engine reports a collision exactly when a covered cell was on. -/
theorem hit_drawSprite (x0 y0 : Nat) (rows : List Byte) (d : Display) :
    (drawSprite x0 y0 rows d).2 = true ↔
      ∃ px py, spriteCovers x0 y0 rows px py = true ∧ d.cell px py = true := by
  simp [drawSprite, hit_drawRows]

end Sys2Proof.Machine
end

