-- ==== Sys2Proof/Laws/Step.lean ====
section
/-! SUPPORT. Laws/Step.lean: what a cycle can do, said once: what is fetched, how a step of a running core is the execution of one
instruction with the cycle's end around it, and when that execution raises a fault. -/

namespace Sys2Proof.Machine

/-! ### Small equations -/

/-- The word of two bytes as a number: the first byte counts 256 (R36). -/
theorem wordOfBytes_eq_ofNat (a b : Byte) : wordOfBytes a b = BitVec.ofNat 16 (256 * a.toNat + b.toNat) := by
  have hor : a.setWidth 16 <<< 8 ||| b.setWidth 16 = a.setWidth 16 <<< 8 + b.setWidth 16 := by
    rw [BitVec.add_eq_or_of_and_eq_zero]
    ext i hi
    interval_cases i <;> simp
  have ha := a.isLt
  have hb := b.isLt
  apply BitVec.eq_of_toNat_eq
  simp only [wordOfBytes, hor, BitVec.toNat_ofNat, BitVec.toNat_add, BitVec.toNat_shiftLeft, BitVec.toNat_setWidth,
    Nat.shiftLeft_eq]
  omega

/-- The information word of `DataRange`, as a word (R181). -/
theorem dataRangeInfo_eq (addr : Word) : dataRangeInfo addr = BitVec.ofNat 16 (max addr.toNat 0x1000) := by
  rw [← toNat_dataRangeInfo]
  simp

/-- A flag byte is 1 or 0 (R12). -/
@[simp] theorem toNat_flagByte (f : Bool) : (flagByte f).toNat = if f then 1 else 0 := by
  cases f <;> rfl

/-- The bytes `DRW` reads are the sprite rows of the closed form (R126). -/
theorem readList_eq_spriteRows (s : State) (n : Nibble) : s.bytes s.idx.toNat n.toNat = s.spriteRows n := by
  apply List.ext_getElem?
  intro j
  rw [State.getElem?_bytes]
  by_cases hj : j < n.toNat <;> simp [State.spriteRows, hj]

/-- A push is refused on a full stack and else writes the stack and `SP` alone (R15). -/
theorem State.push_cases (s : State) (value : Word) :
    (s.sp.val = 16 ∧ s.push value = none) ∨
      (s.sp.val < 16 ∧ ∃ stack sp, s.push value = some { s with stack := stack, sp := sp }) := by
  by_cases h : s.sp.val < 16
  · exact Or.inr ⟨h, _, _, State.push_of_lt s value h⟩
  · have h16 : s.sp.val = 16 := by omega
    exact Or.inl ⟨h16, State.push_of_full s value h16⟩

/-- A pop is refused on an empty stack and else writes `SP` alone (R15). -/
theorem State.pop_cases (s : State) :
    (s.sp.val = 0 ∧ s.pop = none) ∨ (0 < s.sp.val ∧ ∃ value sp, s.pop = some (value, { s with sp := sp })) := by
  rcases Nat.eq_zero_or_pos s.sp.val with h | h
  · exact Or.inl ⟨h, State.pop_of_empty s h⟩
  · exact Or.inr ⟨h, _, _, State.pop_of_pos s h⟩

/-- The scan finds key `k` when line `k` is 1 and no line below it is (R143). -/
theorem lowestKey_of_least {keys : BitVec 16} {k : Fin 16} (hk : keys.getLsbD k.val = true)
    (hlow : ∀ j : Fin 16, j < k → keys.getLsbD j.val = false) : lowestKey keys = some k := by
  cases hs : lowestKey keys with
  | none =>
    rw [lowestKey_eq_none] at hs
    simp [hs] at hk
  | some j =>
    obtain ⟨hj, hjlow⟩ := lowestKey_eq_some hs
    rcases lt_trichotomy j k with hlt | rfl | hgt
    · exact absurd (hj.symm.trans (hlow j hlt)) (by decide)
    · rfl
    · exact absurd (hk.symm.trans (hjlow k hgt)) (by decide)

/-! ### The fetch and the step -/

/-- The instruction at `PC`, where one can be fetched (R36). -/
theorem State.instrAt_of_le {s : State} (h : s.pc.toNat ≤ 0xFFE) :
    s.instrAt = some (decode (wordOfBytes (s.byte s.pc.toNat) (s.byte (s.pc.toNat + 1)))) := by
  simp [State.instrAt, State.fetch_of_le h]

/-- An instruction was fetched at an address of at most 0xFFE. -/
theorem State.pc_le_of_instrAt {s : State} {i : Instr} (h : s.instrAt = some i) : s.pc.toNat ≤ 0xFFE := by
  by_contra hn
  rw [State.instrAt, State.fetch_of_gt (by omega)] at h
  cases h

/-- The fetch depends on FONT_BASE, memory and `PC` alone. -/
theorem State.instrAt_congr {s t : State} (hb : t.fontBase = s.fontBase) (hm : t.mem = s.mem) (hp : t.pc = s.pc) :
    t.instrAt = s.instrAt := by
  simp [State.instrAt, State.fetch, State.byte_congr hb hm, hp]

/-- A step of a halted core (R184). -/
theorem step_of_halted {s : State} (h : s.fault.fv = true) : step s = .next s := by
  simp [step, cycle, h]

/-- A step of a running core that can fetch: execute, then the cycle's end (R20). -/
theorem step_of_instrAt {s : State} {i : Instr} (hr : s.Running) (hi : s.instrAt = some i) :
    step s = endCycle (exec i s.advance) := by
  have hf := State.fetch_of_le (State.pc_le_of_instrAt hi)
  unfold State.Running at hr
  rw [State.instrAt, hf, Option.map_some, Option.some.injEq] at hi
  simp [step, cycle, hr, hf, hi]

/-- A step of a running core that can not fetch latches `FetchRange` (R36). -/
theorem step_of_no_fetch {s : State} (hr : s.Running) (hp : 0xFFE < s.pc.toNat) :
    step s = .next (State.closeLoad { s with fault := ⟨true, 1, s.pc⟩ }) := by
  unfold State.Running at hr
  simp [step, cycle, hr, State.fetch_of_gt hp, endCycle, State.latchFault, FaultCause.code]

/-- The end of a cycle that raised a fault (R183): no tick; the load port is closed (R42). -/
theorem endCycle_of_fault {t : State} (h : t.fault.fv = true) : endCycle (.next t) = .next t.closeLoad := by
  simp [endCycle, h]

/-- The end of a cycle that raised none: the tick and the host's move (R154); the load port is closed (R42). -/
theorem endCycle_of_running {t : State} (h : t.Running) : endCycle (.next t) = .next t.tick.hostTurn.closeLoad := by
  unfold State.Running at h
  simp [endCycle, h]

/-! ### What the execute step can do -/

/-- A meaning over a data access of `n` bytes: `DataRange` exactly when the access reaches past 0xFFF (R35, R180). -/
theorem dataAccess_cases (s : State) (n : Nat) (r : Result)
    (hin : (n = 0 ∨ s.idx.toNat + n ≤ 4096) → ∃ t, r = .next t ∧ t.fault = s.fault)
    (hout : ¬(n = 0 ∨ s.idx.toNat + n ≤ 4096) → r = raiseDataRange s.advance) :
    (∃ fc fi, s.dataFault n fc fi ∧ r = .next { s with fault := ⟨true, fc, BitVec.ofNat 16 fi⟩ }) ∨
      ((∀ fc fi, ¬s.dataFault n fc fi) ∧ ∃ t, r = .next t ∧ t.fault = s.fault) := by
  by_cases h : n = 0 ∨ s.idx.toNat + n ≤ 4096
  · refine Or.inr ⟨fun fc fi hf => ?_, hin h⟩
    have := hf.1
    unfold State.reachesPastEnd at this
    omega
  · refine Or.inl ⟨2, max s.idx.toNat 0x1000, ⟨?_, rfl, rfl⟩, ?_⟩
    · unfold State.reachesPastEnd
      omega
    · rw [hout h]
      simp only [raiseDataRange, raise_advance, dataRangeInfo_eq]
      rfl

/-- A meaning over a key index: `KeyIndexRange` exactly when it is above 15 (R180). -/
theorem keyIndex_cases (s : State) (x : RegIdx) (t : State) (ht : t.fault = s.fault) :
    (∃ fc fi, ((s.reg x).toNat > 15 ∧ fc = (5 : BitVec 3) ∧ fi = (s.reg x).toNat) ∧
        (if (s.advance.reg x).toNat > 15 then raiseKeyIndex x s.advance else .next t) =
          .next { s with fault := ⟨true, fc, BitVec.ofNat 16 fi⟩ }) ∨
      ((∀ (fc : BitVec 3) (fi : Nat), ¬((s.reg x).toNat > 15 ∧ fc = 5 ∧ fi = (s.reg x).toNat)) ∧
        ∃ u, (if (s.advance.reg x).toNat > 15 then raiseKeyIndex x s.advance else .next t) = .next u ∧
          u.fault = s.fault) := by
  rw [State.reg_advance]
  by_cases h : (s.reg x).toNat > 15
  · refine Or.inl ⟨5, (s.reg x).toNat, ⟨h, rfl, rfl⟩, ?_⟩
    have hw : wideByte (s.reg x) = BitVec.ofNat 16 (s.reg x).toNat :=
      BitVec.eq_of_toNat_eq (by simp [wideByte])
    simp only [if_pos h, raiseKeyIndex, raise_advance, State.reg_advance, hw]
    rfl
  · exact Or.inr ⟨fun fc fi hf => h hf.1, t, if_neg h, ht⟩

/-- Executing an instruction either raises the fault of the table and changes nothing but the latch, or meets no condition
of the table and leaves the latch alone (R180, R183). -/
theorem exec_cases (i : Instr) (s : State) :
    (∃ fc fi, s.executeFaults fc fi i ∧
        exec i s.advance = .next { s with fault := ⟨true, fc, BitVec.ofNat 16 fi⟩ }) ∨
      ((∀ fc fi, ¬s.executeFaults fc fi i) ∧ ∃ t, exec i s.advance = .next t ∧ t.fault = s.fault) := by
  cases i
  case drw x y n =>
    refine dataAccess_cases s n.toNat _ (fun h => ?_) (fun h => ?_)
    · simp only [exec, execDrw, State.memRead_eq, State.advance_idx, if_pos h]
      exact ⟨_, rfl, rfl⟩
    · simp only [exec, execDrw, State.memRead_eq, State.advance_idx, if_neg h]
  case ldB x =>
    have hl : (bcdDigits (s.advance.reg x)).length = 3 := rfl
    refine dataAccess_cases s 3 _ (fun h => ?_) (fun h => ?_)
    · simp only [exec, execLdB, State.memWrite_eq, State.advance_idx, hl, if_pos h]
      exact ⟨_, rfl, rfl⟩
    · simp only [exec, execLdB, State.memWrite_eq, State.advance_idx, hl, if_neg h]
  case stRegs x =>
    refine dataAccess_cases s (x.val + 1) _ (fun h => ?_) (fun h => ?_)
    · simp only [exec, execStRegs, State.memWrite_eq, State.advance_idx, State.length_regBlock, if_pos h]
      exact ⟨_, rfl, rfl⟩
    · simp only [exec, execStRegs, State.memWrite_eq, State.advance_idx, State.length_regBlock, if_neg h]
  case ldRegs x =>
    refine dataAccess_cases s (x.val + 1) _ (fun h => ?_) (fun h => ?_)
    · simp only [exec, execLdRegs, State.memRead_eq, State.advance_idx, if_pos h]
      exact ⟨_, rfl, rfl⟩
    · simp only [exec, execLdRegs, State.memRead_eq, State.advance_idx, if_neg h]
  case call nnn =>
    rcases State.push_cases s.advance s.advance.pc with ⟨h, hp⟩ | ⟨h, stack, sp, hp⟩
    · refine Or.inl ⟨3, 16, ⟨h, rfl, rfl⟩, ?_⟩
      simp only [exec, execCall, hp, raise_advance]
      rfl
    · refine Or.inr ⟨fun fc fi hf => by have h16 : s.sp.val = 16 := hf.1; have : s.sp.val < 16 := h; omega, ?_⟩
      simp only [exec, execCall, hp]
      exact ⟨_, rfl, rfl⟩
  case ret =>
    rcases State.pop_cases s.advance with ⟨h, hp⟩ | ⟨h, value, sp, hp⟩
    · refine Or.inl ⟨4, 0, ⟨h, rfl, rfl⟩, ?_⟩
      simp only [exec, execRet, hp, raise_advance]
      rfl
    · refine Or.inr ⟨fun fc fi hf => by have h0 : s.sp.val = 0 := hf.1; have : 0 < s.sp.val := h; omega, ?_⟩
      simp only [exec, execRet, hp]
      exact ⟨_, rfl, rfl⟩
  case skp x => exact keyIndex_cases s x _ (by rw [skipIf_eq]; rfl)
  case sknp x => exact keyIndex_cases s x _ (by rw [skipIf_eq]; rfl)
  case ldVxK x =>
    refine Or.inr ⟨fun fc fi hf => hf, ?_⟩
    simp only [exec, execLdVxK]
    split <;> exact ⟨_, rfl, rfl⟩
  case seImm x kk => exact Or.inr ⟨fun fc fi hf => hf, _, rfl, by rw [skipIf_eq]; rfl⟩
  case sneImm x kk => exact Or.inr ⟨fun fc fi hf => hf, _, rfl, by rw [skipIf_eq]; rfl⟩
  case seReg x y => exact Or.inr ⟨fun fc fi hf => hf, _, rfl, by rw [skipIf_eq]; rfl⟩
  case sneReg x y => exact Or.inr ⟨fun fc fi hf => hf, _, rfl, by rw [skipIf_eq]; rfl⟩
  all_goals exact Or.inr ⟨fun fc fi hf => hf, _, rfl, rfl⟩

/-- A step of a running core that fetches: it either raised a fault and changed nothing but the latch, or it executed the
instruction without one, ticked and let the host move; either way the load port is closed. -/
theorem step_cases {s t : State} {i : Instr} (hr : s.Running) (hi : s.instrAt = some i) (h : step s = .next t) :
    (∃ fc fi, s.executeFaults fc fi i ∧
        t = State.closeLoad { s with fault := ⟨true, fc, BitVec.ofNat 16 fi⟩ }) ∨
      ((∀ fc fi, ¬s.executeFaults fc fi i) ∧
        ∃ u, exec i s.advance = .next u ∧ u.fault = s.fault ∧ t = u.tick.hostTurn.closeLoad) := by
  rw [step_of_instrAt hr hi] at h
  rcases exec_cases i s with ⟨fc, fi, hf, he⟩ | ⟨hn, u, he, hu⟩
  · rw [he, endCycle_of_fault rfl] at h
    cases h
    exact Or.inl ⟨fc, fi, hf, rfl⟩
  · have hur : u.Running := by
      unfold State.Running at hr ⊢
      rw [hu, hr]
    rw [he, endCycle_of_running hur] at h
    cases h
    exact Or.inr ⟨hn, u, he, hu, rfl⟩

/-- The same read forwards: an execution that answers `u` and leaves the latch alone is a step to `u` ticked. -/
theorem step_of_exec {s u : State} {i : Instr} (hr : s.Running) (hi : s.instrAt = some i)
    (he : exec i s.advance = .next u) (hu : u.fault = s.fault) : step s = .next u.tick.hostTurn.closeLoad := by
  have hur : u.Running := by
    unfold State.Running at hr ⊢
    rw [hu, hr]
  rw [step_of_instrAt hr hi, he, endCycle_of_running hur]

/-- After a step of a running core the load port is closed (R42). -/
theorem loadOpen_of_step {s t : State} (hr : s.Running) (h : step s = .next t) : t.ports.loadOpen = false := by
  by_cases hp : s.pc.toNat ≤ 0xFFE
  · rcases step_cases hr (State.instrAt_of_le hp) h with ⟨_, _, -, rfl⟩ | ⟨-, _, -, -, rfl⟩ <;> rfl
  · rw [step_of_no_fetch hr (by omega)] at h
    cases h
    rfl

/-! ### Several cycles -/

/-- A run of no cycle. -/
theorem run_zero (s : State) : Sys2Proof.core.run 0 s = .next s := rfl

/-- A run that begins with a step to `t` goes on from `t`. -/
theorem run_succ {s t : State} (n : Nat) (h : step s = .next t) :
    Sys2Proof.core.run (n + 1) s = Sys2Proof.core.run n t := by
  have h' : Sys2Proof.core.step s = .next t := h
  simp only [Host.Core.run, h']

/-! ### The sprite instruction -/

/-- `DRW` over a sprite that lies in memory, in the terms of the closed form (R126). -/
theorem exec_drw_of_inRange (s : State) (x y : RegIdx) (n : Nibble) (h : n.toNat = 0 ∨ s.idx.toNat + n.toNat ≤ 4096) :
    exec (.drw x y n) s =
      .next (State.setReg
        { s with disp := (drawSprite (startColumn s x) (startRow s y) (s.spriteRows n) s.disp).1 } vf
        (flagByte (drawSprite (startColumn s x) (startRow s y) (s.spriteRows n) s.disp).2)) := by
  simp only [exec, execDrw, State.memRead_eq, if_pos h, readList_eq_spriteRows]

end Sys2Proof.Machine
end

