-- ==== Sys2Proof/Tests/Slice0.lean ====
section
/-! SUPPORT. Tests/Slice0.lean: small tests with expected values from spec/95_test_vectors.md (L1, L2; the vector's number in each
comment) or by hand from the rule named: the WellFormed smoke, decoding by word, one step per instruction, and a witness
for the hypotheses of every obligation that has some. -/

namespace Sys2Proof.Tests

open Sys2Proof.Machine

/-! ### Helpers -/

/-- The next state, if there is one. -/
def nextOf : Result → Option State
  | .next t => some t
  | .fault _ => none
  | .refused _ => none

/-- `s` with these registers set. -/
def withRegs (s : State) (rs : List (RegIdx × Byte)) : State := rs.foldl (fun t p => t.setReg p.1 p.2) s

/-- `s` with these bytes of memory written. -/
def withMem (s : State) (bs : List (Nat × Byte)) : State :=
  bs.foldl (fun t p => t.writeBytes p.1 [p.2]) s

/-- The reset state with these registers and the word at `PC`. -/
def start (w : Nat) (rs : List (RegIdx × Byte)) : State := (withRegs State.reset rs).withFetchWord 16 w

/-- A view of the state after one cycle. -/
def after {α : Type} (s : State) (f : State → α) : Option α := (nextOf (step s)).map f

/-! ### WellFormed: an ill-formed term for each check, refused -/

/-- 0x0230 decodes as CLS but no assembler emits it (R62, canonical 0x00E0). -/
theorem test_canonicalWord_refuses : canonicalWord 0x0230 = false ∧ canonicalWord 0x5121 = false ∧
    canonicalWord 0xE10E = false ∧ canonicalWord 0x8128 = false ∧ canonicalWord 0x8346 = false := by decide

theorem test_canonicalWord_accepts : canonicalWord 0x00E0 = true ∧ canonicalWord 0x0001 = true ∧
    canonicalWord 0x830E = true ∧ canonicalWord 0xE19E = true ∧ canonicalWord 0xF165 = true := by decide

/-- L2.11, 2 and 3: 3584 bytes fit, 3585 do not (R43). -/
theorem test_imageFits : imageFits (List.replicate 3585 0) = false ∧ imageFits (List.replicate 3584 0) = true := by
  unfold imageFits
  rw [List.length_replicate, List.length_replicate]
  exact ⟨rfl, rfl⟩

/-- FONT_BASE is at most 0x1B0 (R32); its default is 0x050 (R7). -/
theorem test_fontBaseOf : fontBaseOf 0x1B1 = none ∧ fontBaseOf 0x1B0 = some 0x1B0 ∧
    fontBaseOf 0x050 = some Config.defaultFontBase := by decide

/-- Fewer than two bytes are no instruction (R50). -/
theorem test_decodeBytes_refuses :
    decodeBytes [] = .rejected .noBytes ∧ decodeBytes [0x6A] = .rejected (.halfWord 0x6A) := by decide

/-! ### Decoding: words written out from R51, R62 and L2.1; the first byte is the high byte (R36) -/

/-- CLS, `0b0000_0000_1110_0000`; the middle nibbles are not examined (R60). -/
theorem test_decode_cls : decodeBytes [0x00, 0xE0] = .instr .cls [] ∧ decode 0x0000 = .cls ∧ decode 0x0230 = .cls := by decide
theorem test_decode_ret : decodeBytes [0x00, 0xEE, 0x12] = .instr .ret [0x12] ∧ decode 0x0ABE = .ret := by decide
theorem test_decode_jp : decodeBytes [0x1A, 0xBC] = .instr (.jp 0xABC) [] := by decide
theorem test_decode_call : decodeBytes [0x2A, 0xBC] = .instr (.call 0xABC) [] := by decide
theorem test_decode_seImm : decodeBytes [0x3A, 0x3B] = .instr (.seImm 10 0x3B) [] := by decide
theorem test_decode_sneImm : decodeBytes [0x4A, 0x3B] = .instr (.sneImm 10 0x3B) [] := by decide
theorem test_decode_seReg : decodeBytes [0x51, 0x20] = .instr (.seReg 1 2) [] ∧ decode 0x512F = .seReg 1 2 := by decide
/-- L1.1: the source's own word. -/
theorem test_decode_ldImm : decodeBytes [0x6A, 0x3B] = .instr (.ldImm 10 0x3B) [] := by decide
theorem test_decode_addImm : decodeBytes [0x71, 0xFF] = .instr (.addImm 1 0xFF) [] := by decide
theorem test_decode_ldReg : decodeBytes [0x81, 0x20] = .instr (.ldReg 1 2) [] := by decide
theorem test_decode_orReg : decodeBytes [0x81, 0x21] = .instr (.orReg 1 2) [] := by decide
theorem test_decode_andReg : decodeBytes [0x81, 0x22] = .instr (.andReg 1 2) [] := by decide
theorem test_decode_xorReg : decodeBytes [0x81, 0x23] = .instr (.xorReg 1 2) [] := by decide
theorem test_decode_addReg : decodeBytes [0x81, 0x24] = .instr (.addReg 1 2) [] := by decide
theorem test_decode_subReg : decodeBytes [0x81, 0x25] = .instr (.subReg 1 2) [] := by decide
theorem test_decode_shr : decodeBytes [0x81, 0x26] = .instr (.shr 1) [] := by decide
theorem test_decode_subnReg : decodeBytes [0x81, 0x27] = .instr (.subnReg 1 2) [] := by decide
theorem test_decode_shl : decodeBytes [0x81, 0x2E] = .instr (.shl 1) [] := by decide
theorem test_decode_sneReg : decodeBytes [0x91, 0x27] = .instr (.sneReg 1 2) [] := by decide
theorem test_decode_ldI : decodeBytes [0xA1, 0x23] = .instr (.ldI 0x123) [] := by decide
theorem test_decode_jpV0 : decodeBytes [0xB1, 0x23] = .instr (.jpV0 0x123) [] := by decide
theorem test_decode_rnd : decodeBytes [0xC1, 0x0F] = .instr (.rnd 1 0x0F) [] := by decide
theorem test_decode_drw : decodeBytes [0xD0, 0x15] = .instr (.drw 0 1 5) [] := by decide
theorem test_decode_skp : decodeBytes [0xE1, 0x9E] = .instr (.skp 1) [] ∧ decode 0xE10E = .skp 1 := by decide
theorem test_decode_sknp : decodeBytes [0xE1, 0xA1] = .instr (.sknp 1) [] ∧ decode 0xE101 = .sknp 1 := by decide
theorem test_decode_ldVxDt : decodeBytes [0xF1, 0x07] = .instr (.ldVxDt 1) [] := by decide
theorem test_decode_ldVxK : decodeBytes [0xF1, 0x0A] = .instr (.ldVxK 1) [] := by decide
theorem test_decode_ldDtVx : decodeBytes [0xF1, 0x15] = .instr (.ldDtVx 1) [] := by decide
theorem test_decode_ldStVx : decodeBytes [0xF1, 0x18] = .instr (.ldStVx 1) [] := by decide
theorem test_decode_addI : decodeBytes [0xF1, 0x1E] = .instr (.addI 1) [] := by decide
theorem test_decode_ldF : decodeBytes [0xF1, 0x29] = .instr (.ldF 1) [] := by decide
theorem test_decode_ldB : decodeBytes [0xF1, 0x33] = .instr (.ldB 1) [] := by decide
theorem test_decode_stRegs : decodeBytes [0xF1, 0x55] = .instr (.stRegs 1) [] := by decide
theorem test_decode_ldRegs : decodeBytes [0xF1, 0x65] = .instr (.ldRegs 1) [] := by decide
theorem test_decode_nop : [0x0001, 0x00E1, 0x0FFF, 0x8128, 0x812D, 0x812F, 0xE19F, 0xE100, 0xF100, 0xF175, 0xF11F, 0xFFFF].all
    (fun w => decode w == .nop) = true := by decide

/-- The table's numbering of a row's bits (one 16-bit word). -/
theorem test_decodeTableWord : decodeTableWord 16 0x6A3B = some (.ldImm 10 0x3B) := by decide

/-! ### Control flow: L2.2 -/

/-- 27: only the timers move. -/
theorem test_nop : after { start 0x0001 [] with dt := 5, st := 1 } (fun t => (t.pc, t.dt, t.st)) = some (0x202, 4, 0) := by
  decide
/-- 1. -/
theorem test_jp : after (start 0x1ABC []) (·.pc) = some 0xABC := by decide
/-- 5. -/
theorem test_call_last : after (State.withFetchWord { State.reset with pc := 0x400, sp := 15 } 16 0x2300)
    (fun t => (t.stack.get 15, t.sp, t.pc)) = some (0x402, 16, 0x300) := by decide
/-- 6. -/
theorem test_call_overflow : after (State.withFetchWord { State.reset with pc := 0x400, sp := 16 } 16 0x2300)
    (fun t => (t.fault, t.pc, t.sp)) = some (⟨true, 3, 16⟩, 0x400, 16) := by decide
/-- 9. -/
theorem test_ret : after { start 0x0ABE [] with sp := 2, stack := (State.reset.stack.set 0 0x111).set 1 0x345 }
    (fun t => (t.sp, t.pc, t.stack.get 1)) = some (1, 0x345, 0x345) := by decide
/-- 8. -/
theorem test_ret_underflow : after (start 0x00EE []) (fun t => (t.fault, t.pc)) = some (⟨true, 4, 0⟩, 0x200) := by decide
/-- 10 and 11. -/
theorem test_seImm : after (start 0x3A3B [(10, 0x3B)]) (·.pc) = some 0x204 ∧
    after (start 0x3A3B [(10, 0x3A)]) (·.pc) = some 0x202 := by decide
/-- 12 and 13. -/
theorem test_sneImm : after (start 0x4A3B [(10, 0x3B)]) (·.pc) = some 0x202 ∧
    after (start 0x4A3B [(10, 0x3A)]) (·.pc) = some 0x204 := by decide
/-- 15 and 16. -/
theorem test_seReg : after (start 0x5121 [(1, 7), (2, 7)]) (·.pc) = some 0x204 ∧
    after (start 0x5120 [(1, 7), (2, 8)]) (·.pc) = some 0x202 := by decide
/-- 18 and 19. -/
theorem test_sneReg : after (start 0x9120 [(1, 7), (2, 7)]) (·.pc) = some 0x202 ∧
    after (start 0x9120 [(1, 7), (2, 8)]) (·.pc) = some 0x204 := by decide
/-- 22: no wrap to 12 bits. -/
theorem test_jpV0 : after (start 0xBFFF [(0, 0xFF)]) (·.pc) = some 0x10FE := by decide
/-- 25: the fetch fails at 0xFFF. -/
theorem test_fetchRange : after { State.reset with pc := 0xFFF } (fun t => (t.fault, t.pc)) =
    some (⟨true, 1, 0xFFF⟩, 0xFFF) := by decide
/-- 24 and 26: the last fetch address, and an odd one. -/
theorem test_fetch_edges :
    after (State.withFetchWord { State.reset with pc := 0xFFE } 16 0x6123) (fun t => (t.reg 1, t.pc)) = some (0x23, 0x1000) ∧
    after (State.withFetchWord { State.reset with pc := 0x201 } 16 0x6123) (fun t => (t.reg 1, t.pc)) = some (0x23, 0x203) := by
  decide

/-! ### Loads: L2.3 -/

/-- 1 (L1.1, the source's scenario). -/
theorem test_ldImm : after (start 0x6A3B []) (fun t => (t.reg 10, t.pc)) = some (0x3B, 0x202) := by decide
/-- 3. -/
theorem test_ldReg : after (start 0x8120 [(1, 1), (2, 0x99)]) (fun t => (t.reg 1, t.reg 2)) = some (0x99, 0x99) := by decide
/-- 5 and 6. -/
theorem test_ldI : after (start 0xA123 []) (·.idx) = some 0x0123 ∧
    after { start 0xA000 [] with idx := 0xFFFF } (·.idx) = some 0 := by decide

/-! ### Arithmetic: L2.4 -/

/-- 2: no carry flag. -/
theorem test_addImm : after (start 0x7101 [(1, 0xFF)]) (fun t => (t.reg 1, t.reg 15)) = some (0, 0) := by decide
/-- 5 and 7: the sum 255 is no carry; the result wins over the flag in VF. -/
theorem test_addReg : after (start 0x8014 [(0, 0x80), (1, 0x7F)]) (fun t => (t.reg 0, t.reg 15)) = some (0xFF, 0) ∧
    after (start 0x8F14 [(15, 0xF0), (1, 0x20)]) (·.reg 15) = some 0x10 := by decide
/-- 8: the operand is the old VF. -/
theorem test_addReg_oldVF : after (start 0x81F4 [(1, 0xFF), (15, 1)]) (fun t => (t.reg 1, t.reg 15)) = some (0, 1) := by decide
/-- 10: strict, so equal operands give 0. -/
theorem test_subReg_equal : after (start 0x8015 [(0, 0x33), (1, 0x33)]) (fun t => (t.reg 0, t.reg 15)) = some (0, 0) := by decide
/-- 9 and 12. -/
theorem test_subReg : after (start 0x8015 [(0, 0x10), (1, 0x20)]) (fun t => (t.reg 0, t.reg 15)) = some (0xF0, 0) ∧
    after (start 0x81F5 [(1, 5), (15, 3)]) (fun t => (t.reg 1, t.reg 15)) = some (2, 1) := by decide
/-- 13 and 16. -/
theorem test_subnReg : after (start 0x8017 [(0, 0x10), (1, 0x20)]) (fun t => (t.reg 0, t.reg 15)) = some (0x10, 1) ∧
    after (start 0x8F17 [(15, 5), (1, 3)]) (·.reg 15) = some 0xFE := by decide

/-! ### Logic and shifts: L2.5 -/

/-- 1. -/
theorem test_orReg : after (start 0x8121 [(1, 0xF0), (2, 0x3C), (15, 1)]) (fun t => (t.reg 1, t.reg 15)) = some (0xFC, 1) := by
  decide
/-- 2. -/
theorem test_andReg : after (start 0x8122 [(1, 0xF0), (2, 0x3C), (15, 1)]) (fun t => (t.reg 1, t.reg 15)) = some (0x30, 1) := by
  decide
/-- 3. -/
theorem test_xorReg : after (start 0x8123 [(1, 0xF0), (2, 0x3C), (15, 1)]) (fun t => (t.reg 1, t.reg 15)) = some (0xCC, 1) := by
  decide
/-- 6 and 8: the other register is not used; the result wins in VF. -/
theorem test_shr : after (start 0x8346 [(3, 4), (4, 0xFF)]) (fun t => (t.reg 3, t.reg 15)) = some (2, 0) ∧
    after (start 0x8F06 [(15, 3)]) (·.reg 15) = some 1 := by decide
/-- 9 and 10. -/
theorem test_shl : after (start 0x830E [(3, 0x81)]) (fun t => (t.reg 3, t.reg 15)) = some (2, 1) ∧
    after (start 0x830E [(3, 0x7F)]) (fun t => (t.reg 3, t.reg 15)) = some (0xFE, 0) := by decide

/-! ### Random: L2.10 -/

/-- 1, and R121: one byte is consumed. -/
theorem test_rnd : after ((start 0xC10F []).planInputs [] [0xA7, 0x11]) (fun t => (t.reg 1, t.ports.randPlan)) =
    some (0x07, [0x11]) := by decide

/-! ### Display: L2.6 -/

/-- 13. -/
theorem test_cls : after { start 0x00E0 [(15, 1)] with disp := (Display.allOff.toggle 0 0).toggle 63 31 }
    (fun t => (t.disp, t.reg 15)) = some (Display.allOff, 1) := by decide
/-- 3: six pixels are clipped and appear nowhere. -/
theorem test_drw_clips : after { withMem (start 0xD011 [(0, 62), (1, 0)]) [(0x300, 0xFF)] with idx := 0x300 }
    (fun t => (t.disp, t.reg 15)) = some ((Display.allOff.toggle 62 0).toggle 63 0, 0) := by decide
/-- L1.5: one cell on is turned off, one is left, one comes on. -/
theorem test_drw_collides :
    after { withMem (start 0xD011 []) [(0x300, 0xA0)] with
        idx := 0x300, disp := (Display.allOff.toggle 0 0).toggle 1 0 }
      (fun t => (t.disp, t.reg 15)) = some ((Display.allOff.toggle 1 0).toggle 2 0, 1) := by decide
/-- 9 and 11: nothing is accessed for n = 0; past 0xFFF a fault before VF is written. -/
theorem test_drw_range : after { start 0xD010 [(15, 1)] with idx := 0xFFFF } (fun t => (t.fault.fv, t.reg 15)) = some (false, 0) ∧
    after { start 0xD012 [(15, 1)] with idx := 0xFFF } (fun t => (t.fault, t.reg 15, t.pc)) =
      some (⟨true, 2, 0x1000⟩, 1, 0x200) := by decide

/-! ### Keypad: L2.7 -/

/-- 1 and 2. -/
theorem test_skp : after ((start 0xE19E [(1, 5)]).driveKeys 0x0020) (·.pc) = some 0x204 ∧
    after ((start 0xE19E [(1, 5)]).driveKeys 0x0010) (·.pc) = some 0x202 := by decide
/-- 7. -/
theorem test_skp_range : after ((start 0xE19E [(1, 0x10)]).driveKeys 0xFFFF) (fun t => (t.fault, t.pc)) =
    some (⟨true, 5, 0x0010⟩, 0x200) := by decide
/-- 4 and 5. -/
theorem test_sknp : after ((start 0xE1A1 [(1, 5)]).driveKeys 0x0020) (·.pc) = some 0x202 ∧
    after (start 0xE1A1 [(1, 5)]) (·.pc) = some 0x204 := by decide
/-- 9: the repeat ticks. -/
theorem test_ldVxK_waits : after { start 0xF20A [(2, 0x55)] with dt := 3, st := 1 } (fun t => (t.pc, t.reg 2, t.dt, t.st)) =
    some (0x200, 0x55, 2, 0) := by decide
/-- 10: the lowest of keys 7 and 9. -/
theorem test_ldVxK : after ((start 0xF20A [(2, 0x55)]).driveKeys 0x0280) (fun t => (t.reg 2, t.pc)) = some (7, 0x202) := by decide

/-! ### Timers: L2.8 -/

/-- 1 and 2: read before the tick. -/
theorem test_ldVxDt : after { start 0xF107 [] with dt := 9 } (fun t => (t.reg 1, t.dt)) = some (9, 8) ∧
    after (start 0xF107 [(1, 7)]) (fun t => (t.reg 1, t.dt)) = some (0, 0) := by decide
/-- 3 and 6: written, then ticked. -/
theorem test_ldDtVx : after (start 0xF115 [(1, 3)]) (·.dt) = some 2 ∧ after (start 0xF115 [(1, 0xFF)]) (·.dt) = some 254 := by
  decide
/-- 7. -/
theorem test_ldStVx : after { start 0xF118 [(1, 2)] with dt := 1 } (fun t => (t.st, t.dt)) = some (1, 0) := by decide
/-- 10: no tick in a faulting cycle. -/
theorem test_fault_no_tick : after { start 0x00EE [] with dt := 5, st := 5 } (fun t => (t.dt, t.st)) = some (5, 5) := by decide

/-! ### Index register and memory: L2.9 -/

/-- 2 and 3. -/
theorem test_addI : after { start 0xF11E [(1, 0xFF), (15, 7)] with idx := 0xFFF } (fun t => (t.idx, t.reg 15)) =
      some (0x10FE, 7) ∧
    after { start 0xF11E [(1, 2)] with idx := 0xFFFF } (·.idx) = some 1 := by decide
/-- 6 and 7: only the low nibble counts. -/
theorem test_ldF : after (start 0xF129 [(1, 0x0F)]) (·.idx) = some 0x009B ∧ after (start 0xF129 [(1, 0xA7)]) (·.idx) = some 0x0073 := by
  decide
/-- R161 at the least and the greatest FONT_BASE: 5 * d past it; P3: 0x000 for glyph 0 at base 0. -/
theorem test_ldF_other_base :
    after (((State.resetAt 0).setReg 1 0x0A).withFetchWord 16 0xF129) (·.idx) = some 0x032 ∧
    after (((State.resetAt 0x1B0).setReg 1 0x0F).withFetchWord 16 0xF129) (·.idx) = some 0x1FB ∧
    after (((State.resetAt 0).setReg 1 0).withFetchWord 16 0xF129) (·.idx) = some 0 := by decide
/-- 14 (L1.7's digits, at the top of memory). -/
theorem test_ldB : after { start 0xF033 [(0, 246)] with idx := 0xFFD } (fun t => t.bytes 0xFFD 3) = some [2, 4, 6] := by decide
/-- 15: all or nothing. -/
theorem test_ldB_range : after { start 0xF033 [(0, 246)] with idx := 0xFFE } (fun t => (t.fault, t.bytes 0xFFE 2)) =
    some (⟨true, 2, 0x1000⟩, [0, 0]) := by decide
/-- 17: three registers, and `I` stays. -/
theorem test_stRegs :
    after { withMem (start 0xF255 [(0, 0x11), (1, 0x22), (2, 0x33), (3, 0x44)]) [(0x303, 0xEE)] with idx := 0x300 }
      (fun t => (t.bytes 0x300 4, t.idx)) = some ([0x11, 0x22, 0x33, 0xEE], 0x300) := by decide
/-- 25: a store over the next word is what is fetched next (R41). -/
theorem test_store_then_fetch : after { start 0xF055 [(0, 0x12)] with idx := 0x202 } (·.instrAt) = some (some (.jp 0x200)) := by
  decide
/-- 22: the glyphs of 0, 1, 2 and the first byte of 3, VF like any register. -/
theorem test_ldRegs : after { start 0xFF65 [] with idx := 0x050 } (·.v.toList) =
    some [0xF0, 0x90, 0x90, 0x90, 0xF0, 0x20, 0x60, 0x20, 0x20, 0x70, 0xF0, 0x10, 0xF0, 0x80, 0xF0, 0xF0] := by decide
/-- 16 and 23. -/
theorem test_ldRegs_range : after { start 0xF033 [] with idx := 0x1234 } (·.fault.fi) = some 0x1234 ∧
    after { withMem (start 0xF165 [(0, 9), (1, 9)]) [(0xFFF, 1)] with idx := 0xFFF } (fun t => (t.fault, t.reg 0, t.reg 1)) =
      some (⟨true, 2, 0x1000⟩, 9, 9) := by decide

/-! ### Reset, load, halt: L2.11 -/

/-- 1: the first and last font byte, and their neighbours. -/
theorem test_reset_font : State.reset.bytes 0x04F 2 = [0, 0xF0] ∧ State.reset.bytes 0x09F 2 = [0x80, 0] := by
  decide
/-- R24, R32 at another FONT_BASE: the font stands at 0x1B0 to 0x1FF. -/
theorem test_reset_font_other_base : (State.resetAt 0x1B0).bytes 0x1AF 2 = [0, 0xF0] ∧
    (State.resetAt 0x1B0).bytes 0x1FF 2 = [0x80, 0] ∧ (State.resetAt 0x1B0).byte 0x050 = 0 := by decide
/-- 7, and R210: the reset input. -/
theorem test_applyReset : (State.applyReset { start 0x1234 [(3, 9)] with fault := ⟨true, 3, 16⟩, pc := 0x400 }).core = State.reset := by
  decide
/-- 2 and 4, on a short image and the empty one: byte i at 0x200 + i. -/
theorem test_load : (State.reset.load [0x6A, 0x3B]).state.map (·.bytes 0x1FF 4) = some [0, 0x6A, 0x3B, 0] ∧
    State.reset.load [] = .loaded State.reset.closeLoad := by decide
/-- R42, R195: a second load, and a load after a cycle that ran or faulted, are refused; a reset opens the port. -/
theorem test_load_once : (State.reset.load [0x6A]).state.map (·.load [0x3B]) = some .refused ∧
    after State.reset (·.load []) = some .refused ∧ after (start 0x00EE []) (·.load []) = some .refused ∧
    after (start 0x00EE []) (fun t => (t.applyReset.load [0x6A]).loadError) = some (some false) := by decide
/-- 6. -/
theorem test_halted : nextOf (step { State.reset with fault := ⟨true, 3, 16⟩, dt := 4 }) =
    some { State.reset with fault := ⟨true, 3, 16⟩, dt := 4 } := by decide

/-! ### Witnesses: for each obligation with hypotheses, concrete data that meet them, each clause at a boundary -/

/-- The state one cycle after reset: 0x0000 is CLS. -/
def resetStep : State := { State.reset with pc := 0x202, ports := { Ports.reset with keys := Config.keyDrive 0, keyTurn := 1, loadOpen := false } }

/-- The step from reset. -/
theorem step_reset : step State.reset = .next resetStep := rfl

/-- The reset state with `RET` at `PC`, whose cycle faults. -/
def atRet : State := start 0x00EE []

theorem witness_CanonicalWordsReencode : canonicalWord 0x00E0 = true ∧ encode (decode 0x0000) ≠ 0x0000 := by decide

theorem witness_DecoderFollowsOpcodeRows : decode 0x0001 = .nop ∧ decode 0x0000 ≠ .nop := by decide

/-- `PC` at reset and a cycle that ticks; the last fetch address; a cycle that faults. -/
theorem witness_StepRunsDecodedInstruction :
    (State.reset.Running ∧ State.reset.pc.toNat ≤ 0xFFE ∧
      decode (BitVec.ofNat 16 (256 * (State.reset.byte State.reset.pc.toNat).toNat +
        (State.reset.byte (State.reset.pc.toNat + 1)).toNat)) = .cls ∧
      exec .cls { State.reset with pc := State.reset.pc + 2 } = .next { State.reset with pc := 0x202 }) ∧
    (State.Running { State.reset with pc := 0xFFE } ∧ (0xFFE : Word).toNat ≤ 0xFFE ∧
      decode (BitVec.ofNat 16 (256 * (State.reset.byte 0xFFE).toNat + (State.reset.byte 0xFFF).toNat)) = .cls) ∧
    (atRet.Running ∧ decode (BitVec.ofNat 16 (256 * (atRet.byte 0x200).toNat + (atRet.byte 0x201).toNat)) = .ret ∧
      exec .ret { atRet with pc := 0x202 } = .next { atRet with fault := ⟨true, 4, 0⟩ }) :=
  ⟨⟨rfl, by decide, by decide, rfl⟩, ⟨rfl, by decide, by decide⟩, rfl, by decide, rfl⟩

theorem witness_HaltedStepChangesNothing : State.fault { State.reset with fault := ⟨true, 3, 16⟩ } = ⟨true, 3, 16⟩ := rfl

/-- Each condition of the table at its least case: the fetch past 0xFFE, an access one past 0xFFF, the full and the empty
stack, key index 16; and a state that meets none. -/
theorem witness_FaultsFollowTheTable :
    State.cycleFaults { State.reset with pc := 0xFFF } 1 0xFFF ∧
    State.cycleFaults { start 0xD012 [] with idx := 0xFFF } 2 0x1000 ∧
    State.cycleFaults { start 0xF033 [] with idx := 0xFFE } 2 0x1000 ∧
    State.cycleFaults { start 0xF055 [] with idx := 0x1000 } 2 0x1000 ∧
    State.cycleFaults { start 0xF065 [] with idx := 0xFFFF } 2 0xFFFF ∧
    State.cycleFaults { start 0x2300 [] with sp := 16 } 3 16 ∧
    State.cycleFaults atRet 4 0 ∧
    State.cycleFaults (start 0xE19E [(1, 16)]) 5 16 ∧
    State.cycleFaults (start 0xE1A1 [(1, 16)]) 5 16 ∧
    State.reset.Running ∧ ∀ fc fi, ¬State.reset.cycleFaults fc fi := by
  refine ⟨Or.inl (by decide),
    Or.inr ⟨.drw 0 1 2, by decide, ⟨by decide, by decide⟩, rfl, by decide⟩,
    Or.inr ⟨.ldB 0, by decide, ⟨by decide, by decide⟩, rfl, by decide⟩,
    Or.inr ⟨.stRegs 0, by decide, ⟨by decide, by decide⟩, rfl, by decide⟩,
    Or.inr ⟨.ldRegs 0, by decide, ⟨by decide, by decide⟩, rfl, by decide⟩,
    Or.inr ⟨.call 0x300, by decide, by decide, rfl, rfl⟩,
    Or.inr ⟨.ret, by decide, by decide, rfl, rfl⟩,
    Or.inr ⟨.skp 1, by decide, by decide, rfl, by decide⟩,
    Or.inr ⟨.sknp 1, by decide, by decide, rfl, by decide⟩, rfl, ?_⟩
  rintro fc fi (⟨h, -⟩ | ⟨i, hi, h⟩)
  · exact absurd h (by decide)
  · cases hi
    exact h

/-- The reset state meets the invariant, and so does a halted state, with every part of the latch's rule. -/
theorem witness_StepKeepsInvariant :
    State.reset.Inv ∧ step State.reset = .next resetStep ∧
    State.Inv (State.closeLoad { State.reset with fault := ⟨true, 4, 0⟩ }) := by
  refine ⟨⟨rfl, by decide, by decide, Or.inl (by decide), by decide⟩, step_reset, rfl, by decide, by decide, ?_, by decide⟩
  exact Or.inr (Or.inr (Or.inr (Or.inr (Or.inl (by decide)))))

/-- A cycle that ends without a fault, and one that ends with one. -/
theorem witness_TimersTickOncePerCycle :
    (State.reset.Running ∧ State.reset.instrAt = some .cls ∧ step State.reset = .next resetStep ∧ resetStep.fault.fv = false) ∧
    (atRet.Running ∧ atRet.instrAt = some .ret ∧ step atRet = .next (State.closeLoad { atRet with fault := ⟨true, 4, 0⟩ })) :=
  ⟨⟨rfl, by decide, step_reset, rfl⟩, rfl, by decide, rfl⟩

/-- The same two cycles, and a `CALL` into the last entry of the stack. -/
theorem witness_PcFollowsTheTable :
    (State.reset.Running ∧ State.reset.instrAt = some .cls ∧ step State.reset = .next resetStep ∧ resetStep.fault.fv = false) ∧
    (atRet.Running ∧ atRet.instrAt = some .ret ∧ step atRet = .next (State.closeLoad { atRet with fault := ⟨true, 4, 0⟩ })) ∧
    State.instrAt { start 0x2300 [] with sp := 15 } = some (.call 0x300) ∧
    after { start 0x2300 [] with sp := 15 } (·.fault.fv) = some false ∧ (15 : Fin 16).val = (15 : Fin 17).val :=
  ⟨witness_TimersTickOncePerCycle.1, witness_TimersTickOncePerCycle.2, by decide, by decide, rfl⟩

/-- One execution that meets the hypothesis of every clause but the display's: `NOP` meets that one. -/
theorem witness_OnlyNamedInstructionsWrite :
    exec .cls State.reset = .next State.reset ∧ exec .nop State.reset = .next State.reset ∧ writesReg 15 .cls = false ∧
    writesFlag .cls = false ∧ writesIndex .cls = false ∧ writesStackPointer .cls = false ∧ writesDisplay .nop = false ∧
    writesMemory .cls = false ∧ readsRandom .cls = false ∧ (∀ x, Instr.cls ≠ .ldDtVx x) ∧ (∀ x, Instr.cls ≠ .ldStVx x) :=
  ⟨rfl, rfl, rfl, rfl, rfl, rfl, rfl, rfl, rfl, nofun, nofun⟩

theorem witness_InputsReachOnlyTheirInstructions :
    readsKeys (.rnd 0 0) = false ∧ readsRandom (.skp 0) = false := ⟨rfl, rfl⟩

/-- Two different states with equal items of R10, equal key lines and equal random bytes. -/
theorem witness_EqualStatesBehaveIdentically :
    State.reset ≠ State.reset.planInputs [1] [] ∧ State.reset.core = (State.reset.planInputs [1] []).core ∧
    State.reset.ports.keys = (State.reset.planInputs [1] []).ports.keys ∧
    State.reset.randInput = (State.reset.planInputs [1] []).randInput := ⟨by decide, rfl, rfl, rfl⟩

/-- `CALL 0x20A` with `SP` at 0 and at 15, and `RET` at the target. -/
theorem witness_CallThenReturnComesBack :
    (start 0x220A []).Running ∧ (start 0x220A []).instrAt = some (.call 0x20A) ∧ (start 0x220A []).sp.val < 16 ∧
    (15 : Fin 17).val < 16 ∧
    after (withMem (start 0x220A []) [(0x20A, 0x00), (0x20B, 0xEE)]) (·.instrAt) = some (some .ret) := by
  refine ⟨rfl, ?_⟩
  decide

/-- All sixteen registers at the top of memory. -/
theorem witness_BlockStoreLoadRoundTrip :
    State.reset.memWf = true ∧ State.idx { State.reset with idx := 0xFF0 } = 0xFF0 ∧
    (0xFF0 : Word).toNat + (15 : RegIdx).val ≤ 0xFFF := by decide

/-- L2.9, 25, with both bytes of the next word stored. -/
theorem witness_StoreIsSeenByTheNextFetch :
    (start 0xF155 []).memWf = true ∧ (start 0xF155 []).Running ∧ (start 0xF155 []).instrAt = some (.stRegs 1) ∧
    (0x202 : Word).toNat + (1 : RegIdx).val ≤ 0xFFF ∧ (0 : RegIdx).val + 1 ≤ (1 : RegIdx).val ∧
    (start 0xF155 []).pc.toNat + 2 = (0x202 : Word).toNat + (0 : RegIdx).val := by
  refine ⟨by decide, rfl, ?_⟩
  decide

/-- L1.6: no key for three cycles, then key 9. -/
def waiting : State := (start 0xF20A [(2, 0x55)]).planInputs [0, 0, 0x0200] []

theorem witness_KeyWaitEndsWithTheFirstKey :
    waiting.Running ∧ waiting.instrAt = some (.ldVxK 2) ∧ waiting.ports.keys = 0 ∧
    waiting.ports.keyPlan = List.replicate 2 0 ++ 0x0200 :: [] ∧ (0x0200 : BitVec 16).getLsbD 9 = true ∧
    ∀ i : RegIdx, i < 9 → (0x0200 : BitVec 16).getLsbD i.val = false :=
  ⟨rfl, by decide, rfl, rfl, rfl, by decide⟩

/-- The last word of zeroed memory with one `CLS` to go, and no word to go. -/
theorem witness_ZeroedMemoryEndsInFetchRange :
    (State.Running { State.reset with pc := 0xFFE } ∧ (0xFFE : Word).toNat + 2 * 1 = 0x1000 ∧
      ∀ a, (0xFFE : Word).toNat ≤ a → a < 0x1000 → State.reset.byte a = 0) ∧
    (0x1000 : Word).toNat + 2 * 0 = 0x1000 := by
  refine ⟨⟨rfl, by decide, fun a h1 h2 => ?_⟩, by decide⟩
  have h : a = 0xFFE ∨ a = 0xFFF := by
    have hp : (0xFFE : Word).toNat = 0xFFE := rfl
    omega
  rcases h with rfl | rfl <;> decide

/-- L2.2, 2. -/
theorem witness_JumpToSelfIsTheEndOfRun : (start 0x1200 []).AtEndOfRun := ⟨rfl, 0x200, by decide, by decide⟩

/-- The glyph of 0 at the corner, drawn on an empty display; and no rows with `I` past memory. -/
theorem witness_DrawingTwiceRestoresTheDisplay :
    (0 : RegIdx) ≠ 15 ∧ (1 : RegIdx) ≠ 15 ∧ (0x050 : Word).toNat + (5 : Nibble).toNat - 1 ≤ 0xFFF ∧
    (0xFFB : Word).toNat + (5 : Nibble).toNat - 1 ≤ 0xFFF ∧ (0 : Nibble) = 0 ∧
    spriteCovers ((State.reset.reg 0).toNat % 64) ((State.reset.reg 1).toNat % 32)
      (State.spriteRows { State.reset with idx := 0x050 } 5) 0 0 = true ∧
    State.reset.disp.cell 0 0 = false := by decide

/-! The clauses `DecodesAs mask pattern`: a word under each mask with every free bit 1, and one with every free bit 0. -/

theorem witness_NopDoesNothing :
    (start 0x0001 []).Running ∧ (start 0x0001 []).instrAt = some .nop := ⟨rfl, by decide⟩

theorem witness_JumpSetsPc : (0x1000 : Word) &&& 0xF000 = 0x1000 ∧ (0x1FFF : Word) &&& 0xF000 = 0x1000 := by decide

theorem witness_JumpV0AddsV0 : (0xB000 : Word) &&& 0xF000 = 0xB000 ∧ (0xBFFF : Word) &&& 0xF000 = 0xB000 := by decide

/-- `SP` at 0, at the last value with room, and full. -/
theorem witness_CallPushesAndJumps : (0x2FFF : Word) &&& 0xF000 = 0x2000 ∧ State.reset.sp.val < 16 ∧
    (State.sp { State.reset with sp := 15 }).val < 16 ∧ (State.sp { State.reset with sp := 16 }).val = 16 := by decide

/-- `SP` at 1, full, and empty. -/
theorem witness_ReturnPopsIntoPc : (0x0FFE : Word) &&& 0xF00F = 0x000E ∧
    (State.sp { State.reset with sp := 1 }).val = (0 : Fin 16).val + 1 ∧
    (State.sp { State.reset with sp := 16 }).val = (15 : Fin 16).val + 1 ∧ State.reset.sp.val = 0 := by decide

theorem witness_SkipIfEqual : (0x3FFF : Word) &&& 0xF000 = 0x3000 ∧ (0x5FFF : Word) &&& 0xF000 = 0x5000 := by decide

theorem witness_SkipIfDifferent : (0x4FFF : Word) &&& 0xF000 = 0x4000 ∧ (0x9FFF : Word) &&& 0xF000 = 0x9000 := by decide

theorem witness_LoadsSetTheirDestination : (0x6FFF : Word) &&& 0xF000 = 0x6000 ∧ (0x8FF0 : Word) &&& 0xF00F = 0x8000 ∧
    (0xAFFF : Word) &&& 0xF000 = 0xA000 := by decide

/-- A register other than the destination is there to be unchanged. -/
theorem witness_AddImmediateWraps : (0x7FFF : Word) &&& 0xF000 = 0x7000 ∧ (15 : RegIdx) ≠ 0 := by decide

/-- A destination that is not VF, and a register that is neither. -/
theorem witness_AddRegistersSetsCarry : (0x8FF4 : Word) &&& 0xF00F = 0x8004 ∧ (14 : RegIdx) ≠ 15 ∧ (0 : RegIdx) ≠ 14 ∧
    (0 : RegIdx) ≠ 15 := by decide

theorem witness_SubtractSetsStrictNoBorrow : (0x8FF5 : Word) &&& 0xF00F = 0x8005 ∧ (14 : RegIdx) ≠ 15 ∧ (0 : RegIdx) ≠ 14 ∧
    (0 : RegIdx) ≠ 15 := by decide

theorem witness_ReverseSubtractSetsStrictNoBorrow : (0x8FF7 : Word) &&& 0xF00F = 0x8007 ∧ (14 : RegIdx) ≠ 15 ∧
    (0 : RegIdx) ≠ 14 ∧ (0 : RegIdx) ≠ 15 := by decide

theorem witness_LogicWorksBitwise : (0x8FF1 : Word) &&& 0xF00F = 0x8001 ∧ (0x8FF2 : Word) &&& 0xF00F = 0x8002 ∧
    (0x8FF3 : Word) &&& 0xF00F = 0x8003 ∧ (15 : RegIdx) ≠ 0 := by decide

theorem witness_ShiftRightSavesLowBit : (0x8FF6 : Word) &&& 0xF00F = 0x8006 ∧ (14 : RegIdx) ≠ 15 ∧ (0 : RegIdx) ≠ 14 ∧
    (0 : RegIdx) ≠ 15 := by decide

theorem witness_ShiftLeftSavesHighBit : (0x8FFE : Word) &&& 0xF00F = 0x800E ∧ (14 : RegIdx) ≠ 15 ∧ (0 : RegIdx) ≠ 14 ∧
    (0 : RegIdx) ≠ 15 := by decide

/-- A byte lined up, none lined up, a 0 bit of the mask. -/
theorem witness_RandomIsMasked : (0xCFFF : Word) &&& 0xF000 = 0xC000 ∧
    (State.reset.planInputs [] [0xA7]).ports.randPlan = 0xA7 :: [] ∧ State.reset.ports.randPlan = [] ∧
    (0x0F : Byte).getLsbD 4 = false ∧ (15 : RegIdx) ≠ 1 := by decide

theorem witness_ClearTurnsEveryCellOff : (0x0FF0 : Word) &&& 0xF00F = 0x0000 := by decide

/-- No rows, a sprite that ends at 0xFFF, one that ends one past it; a covered cell that is on, and a display with none on. -/
theorem witness_DrawTogglesCoveredCells : (0xDFFF : Word) &&& 0xF000 = 0xD000 ∧ (0 : Nibble) = 0 ∧
    (0xFF1 : Word).toNat + (15 : Nibble).toNat - 1 ≤ 0xFFF ∧ (1 : Nibble) ≠ 0 ∧
    (0x1000 : Word).toNat + (1 : Nibble).toNat - 1 > 0xFFF ∧
    (State.reset.disp.toggle 0 0).cell 0 0 = true ∧
    spriteCovers 0 0 (State.spriteRows { State.reset with idx := 0x050 } 5) 0 0 = true ∧
    (∀ px py, px < 64 → py < 32 → State.reset.disp.cell px py = true →
      spriteCovers 0 0 (State.spriteRows State.reset 1) px py = false) ∧ (0 : RegIdx) ≠ 15 := by
  refine ⟨by decide, rfl, by decide, by decide, by decide, by decide, by decide, fun px py _ _ h => ?_, by decide⟩
  simp [State.reset, State.resetAt, Display.cell] at h

/-- Key indexes 15 and 16. -/
theorem witness_SkipIfKeyPressed : (0xEFFE : Word) &&& 0xF00F = 0xE00E ∧ ((State.reset.setReg 1 15).reg 1).toNat ≤ 15 ∧
    ((State.reset.setReg 1 16).reg 1).toNat > 15 := by decide

theorem witness_SkipIfKeyNotPressed : (0xEFF1 : Word) &&& 0xF00F = 0xE001 ∧ ((State.reset.setReg 1 15).reg 1).toNat ≤ 15 ∧
    ((State.reset.setReg 1 16).reg 1).toNat > 15 := by decide

/-- Only key 15, key 0 with others, and no key. -/
theorem witness_KeyWaitTakesTheLowestKey : (0xFF0A : Word) &&& 0xF0FF = 0xF00A ∧
    (State.reset.driveKeys 0x8000).ports.keys.getLsbD 15 = true ∧
    (∀ j : Fin 16, j < 15 → (State.reset.driveKeys 0x8000).ports.keys.getLsbD j.val = false) ∧
    (State.reset.driveKeys 0x0281).ports.keys.getLsbD 0 = true ∧ (∀ j : Fin 16, ¬j < 0) ∧
    ∀ k : Fin 16, State.reset.ports.keys.getLsbD k.val = false := by decide

theorem witness_TimerInstructionsMoveBytes : (0xFF07 : Word) &&& 0xF0FF = 0xF007 ∧ (0xFF15 : Word) &&& 0xF0FF = 0xF015 ∧
    (0xFF18 : Word) &&& 0xF0FF = 0xF018 ∧ (start 0xF107 []).instrAt = some (.ldVxDt 1) ∧
    (start 0xF115 []).instrAt = some (.ldDtVx 1) ∧ (start 0xF118 []).instrAt = some (.ldStVx 1) ∧
    (start 0xF107 []).fault.fv = false ∧ (start 0xF115 []).fault.fv = false ∧ (start 0xF118 []).fault.fv = false := by decide

theorem witness_AddToIndexWraps : (0xFF1E : Word) &&& 0xF0FF = 0xF01E := by decide

theorem witness_FontAddressOfLowNibble : (0xFF29 : Word) &&& 0xF0FF = 0xF029 := by decide

/-- The last place that fits and the first that does not. -/
theorem witness_BcdStoresThreeDigits : (0xFF33 : Word) &&& 0xF0FF = 0xF033 ∧ State.reset.memWf = true ∧
    (0xFFD : Word).toNat + 2 ≤ 0xFFF ∧ (0xFFE : Word).toNat + 2 > 0xFFF := by decide

theorem witness_BlockStoreWritesRegisters : (0xFF55 : Word) &&& 0xF0FF = 0xF055 ∧ State.reset.memWf = true ∧
    (0xFF0 : Word).toNat + (15 : RegIdx).val ≤ 0xFFF ∧ (0xFF1 : Word).toNat + (15 : RegIdx).val > 0xFFF ∧
    (15 : RegIdx) ≤ 15 := by decide

theorem witness_BlockLoadReadsMemory : (0xFF65 : Word) &&& 0xF0FF = 0xF065 ∧
    (0xFF0 : Word).toNat + (15 : RegIdx).val ≤ 0xFFF ∧ (0xFF1 : Word).toNat + (15 : RegIdx).val > 0xFFF := by decide

/-- A cell on the font's first byte is canonical where the font stands elsewhere. -/
theorem witness_CanonicalMemoriesAreTheirBytes : Memory.wf 0x050 [(0x200, 1)] = true ∧ Memory.wf 0x050 [(4096, 1)] = false ∧
    Memory.wf 0x050 [(0x050, 0xF0)] = false ∧ Memory.wf 0x1B0 [(0x050, 0xF0)] = true ∧ Memory.wf 0x1B0 [(0x1B0, 0xF0)] = false ∧
    (∀ a, a < 4096 → Memory.read 0x1B0 [(0x200, 1)] a = Memory.read 0x1B0 [(0x200, 1)] a) :=
  ⟨by decide, by decide, by decide, by decide, by decide, fun _ _ => rfl⟩

/-- The longest image that fits and the shortest that does not; an open port and a closed one. -/
theorem witness_LoadCopiesTheWholeImageOrNothing : State.reset.memWf = true ∧ State.reset.ports.loadOpen = true ∧
    State.reset.closeLoad.ports.loadOpen = false ∧
    (List.replicate 3584 (1 : Byte)).length ≤ 3584 ∧ (List.replicate 3585 (1 : Byte)).length > 3584 := by
  rw [List.length_replicate, List.length_replicate]
  exact ⟨rfl, rfl, rfl, Nat.le_refl _, Nat.lt_succ_self _⟩

/-- A load that is taken and one that overflows; a step of a running core that executes and one that faults; a refused load
before a step. -/
theorem witness_LoadHappensAtMostOnce :
    (State.reset.load [0x6A]).state = some (State.reset.writeBytes 0x200 [0x6A]).closeLoad ∧
    (∀ img, 3584 < img.length → (State.reset.load img).state = some State.reset.closeLoad) ∧
    (State.reset.Running ∧ step State.reset = .next resetStep) ∧
    (atRet.Running ∧ step atRet = .next (State.closeLoad { atRet with fault := ⟨true, 4, 0⟩ })) ∧
    resetStep.load [0x6A] = .refused ∧ State.reset.closeLoad.load [] = .refused ∧
    step State.reset.closeLoad = .next resetStep := by
  refine ⟨rfl, fun img h => ?_, ⟨rfl, rfl⟩, ⟨rfl, rfl⟩, rfl, rfl, rfl⟩
  rcases State.load_cases State.reset img with ⟨h0, -⟩ | ⟨-, h1, -⟩ | ⟨-, -, h2⟩
  · exact absurd h0 (by decide)
  · omega
  · rw [h2]; rfl

theorem witness_FirstInstructionIsTheImagesFirstWord : (List.replicate 3582 (0 : Byte)).length ≤ 3582 := by
  rw [List.length_replicate]

theorem witness_ResetStateIsAsListed : (79 : Nat) < 80 ∧ (0x04F : Nat) < (0x050 : FontBase).val ∧
    (0x050 : FontBase).val + 80 ≤ 0x0A0 ∧ (0x1B0 : FontBase).val + 80 ≤ 0x200 := by decide

/-- The last row of the last glyph, at the greatest FONT_BASE. -/
theorem witness_GlyphsLieBelowThePrograms : (4 : Nat) < 5 ∧
    (State.resetAt 0x1B0).byte ((glyphAddr 0x1B0 15).toNat + 4) = 0x80 := by decide

theorem witness_DisplayPortShowsTheCells : (63 : Nat) < 64 ∧ (31 : Nat) < 32 := by decide

end Sys2Proof.Tests
end

section
/-! Where one cycle leaves `PC` (spec/10_state.md R21): the equation of each meaning that can fault on the path where it does
not, of the key-wait on either path, the two shared shapes of `PC` (going on, skipping), and the table. -/

namespace Sys2Proof.Machine

/-! ### The meanings with a condition, on one path -/

/-- An access that meets no condition of the fault table is in range (R35, R180). -/
theorem State.inRange_of_no_dataFault {s : State} {n : Nat} (h : ∀ fc fi, ¬s.dataFault n fc fi) :
    n = 0 ∨ s.idx.toNat + n ≤ 4096 := by
  by_contra hout
  have hpast : s.reachesPastEnd n := ⟨by omega, by omega⟩
  exact h 2 _ ⟨hpast, rfl, rfl⟩

/-- `LD B` over three bytes of memory stores the digits (R163). -/
theorem exec_ldB_of_inRange (s : State) (x : RegIdx) (h : s.idx.toNat + 3 ≤ 4096) :
    exec (.ldB x) s = .next (s.writeBytes s.idx.toNat (bcdDigits (s.reg x))) := by
  have hl : (bcdDigits (s.reg x)).length = 3 := rfl
  simp only [exec, execLdB, State.memWrite_eq, hl, if_pos (Or.inr h)]

/-- `LD [I], Vx` over bytes of memory stores the block (R164). -/
theorem exec_stRegs_of_inRange (s : State) (x : RegIdx) (h : s.idx.toNat + (x.val + 1) ≤ 4096) :
    exec (.stRegs x) s = .next (s.writeBytes s.idx.toNat (s.regBlock x)) := by
  simp only [exec, execStRegs, State.memWrite_eq, State.length_regBlock, if_pos (Or.inr h)]

/-- `LD Vx, [I]` over bytes of memory loads the block (R165). -/
theorem exec_ldRegs_of_inRange (s : State) (x : RegIdx) (h : s.idx.toNat + (x.val + 1) ≤ 4096) :
    exec (.ldRegs x) s = .next (s.setRegBlock (s.bytes s.idx.toNat (x.val + 1))) := by
  simp only [exec, execLdRegs, State.memRead_eq, if_pos (Or.inr h)]

/-- `CALL` with room on the stack pushes `PC` and jumps (R72). -/
theorem exec_call_of_lt (s : State) (nnn : Addr12) (h : s.sp.val < 16) :
    exec (.call nnn) s =
      .next { s with stack := s.stack.set s.sp.val s.pc h, sp := ⟨s.sp.val + 1, by omega⟩, pc := addrWord nnn } := by
  simp only [exec, execCall, State.push_of_lt s s.pc h]

/-- `RET` with an entry on the stack pops it into `PC` (R73). -/
theorem exec_ret_of_pos (s : State) (h : 0 < s.sp.val) :
    exec .ret s = .next { s with sp := ⟨s.sp.val - 1, by omega⟩, pc := s.stack[s.sp.val - 1] } := by
  simp only [exec, execRet, State.pop_of_pos s h]

/-- `SKP` with a key index skips on the key's line (R141). -/
theorem exec_skp_of_le (s : State) (x : RegIdx) (h : (s.reg x).toNat ≤ 15) :
    exec (.skp x) s = .next (skipIf (s.key (s.reg x).toNat) s) := by
  simp only [exec, execSkp, if_neg (Nat.not_lt.mpr h)]

/-- `SKNP` with a key index skips on the key's line being 0 (R142). -/
theorem exec_sknp_of_le (s : State) (x : RegIdx) (h : (s.reg x).toNat ≤ 15) :
    exec (.sknp x) s = .next (skipIf (!s.key (s.reg x).toNat) s) := by
  simp only [exec, execSknp, if_neg (Nat.not_lt.mpr h)]

/-- `LD Vx, K` with no key pressed steps `PC` back (R144). -/
theorem exec_ldVxK_of_none (s : State) (x : RegIdx) (h : s.ports.keys = 0) :
    exec (.ldVxK x) s = .next { s with pc := s.pc - 2 } := by
  simp only [exec, execLdVxK, (lowestKey_eq_none _).mpr h]

/-- `LD Vx, K` with a key pressed writes a register (R143). -/
theorem exec_ldVxK_of_pressed (s : State) (x : RegIdx) (h : s.ports.keys ≠ 0) :
    ∃ b, exec (.ldVxK x) s = .next (s.setReg x b) := by
  obtain ⟨k, hk⟩ := Option.ne_none_iff_exists'.mp (mt (lowestKey_eq_none _).mp h)
  exact ⟨BitVec.ofNat 8 k.val, by simp only [exec, execLdVxK, hk]⟩

/-! ### `PC` as a number -/

/-- The fetch advance wraps at no fetch address. -/
theorem State.toNat_pc_advance {s : State} (h : s.pc.toNat ≤ 0xFFE) : s.advance.pc.toNat = s.pc.toNat + 2 := by
  rw [State.advance_pc]
  bv_omega

/-- A skip after the fetch advance leaves `pc0 + 4` or `pc0 + 2` (R21). -/
theorem toNat_pc_skipIf_advance {s : State} (h : s.pc.toNat ≤ 0xFFE) {c : Bool} {P : Prop} [Decidable P]
    (hc : c = true ↔ P) : (skipIf c s.advance).pc.toNat = pcAfterSkip s.pc.toNat P := by
  simp only [skipIf_eq, pcAfterSkip, State.advance_pc, hc]
  split <;> bv_omega

/-- An address immediate is the number it encodes (R53). -/
@[simp] theorem toNat_addrWord (nnn : Addr12) : (addrWord nnn).toNat = nnn.toNat := by
  have hlt := nnn.isLt
  simp only [addrWord, BitVec.toNat_setWidth]
  omega

/-- The sum of `JP V0` is exact (R78). -/
theorem toNat_addrPlusV0 (s : State) (nnn : Addr12) : (addrPlusV0 s nnn).toNat = nnn.toNat + (s.reg 0).toNat := by
  have hn := nnn.isLt
  have hv := (s.reg 0).isLt
  simp only [addrPlusV0, BitVec.toNat_add, toNat_addrWord, BitVec.toNat_setWidth]
  omega

/-! ### The table of R21 -/

/-- The execute step of an instruction fetched at `s.pc`, where it raises no fault, answers a state with the `PC` of the
table. -/
theorem exec_pcAfter {s : State} (hpc : s.pc.toNat ≤ 0xFFE) (i : Instr) (hn : ∀ fc fi, ¬s.executeFaults fc fi i) :
    ∃ u, exec i s.advance = .next u ∧ u.pc.toNat = s.pcAfter i := by
  have hadv := State.toNat_pc_advance hpc
  cases i
  case jp nnn => exact ⟨_, rfl, toNat_addrWord nnn⟩
  case jpV0 nnn => exact ⟨_, rfl, toNat_addrPlusV0 s nnn⟩
  case call nnn =>
    have hsp : s.sp.val < 16 := by
      have hfull : s.sp.val ≠ 16 := fun h => hn 3 16 ⟨h, rfl, rfl⟩
      omega
    exact ⟨_, exec_call_of_lt s.advance nnn hsp, toNat_addrWord nnn⟩
  case ret =>
    have hsp : 0 < s.sp.val := Nat.pos_of_ne_zero fun h => hn 4 0 ⟨h, rfl, rfl⟩
    refine ⟨_, exec_ret_of_pos s.advance hsp, ?_⟩
    have hlt : s.sp.val - 1 < 16 := by omega
    simp [State.pcAfter, hlt]
  case seImm x kk => exact ⟨_, rfl, toNat_pc_skipIf_advance hpc (by simp)⟩
  case sneImm x kk => exact ⟨_, rfl, toNat_pc_skipIf_advance hpc (by simp)⟩
  case seReg x y => exact ⟨_, rfl, toNat_pc_skipIf_advance hpc (by simp)⟩
  case sneReg x y => exact ⟨_, rfl, toNat_pc_skipIf_advance hpc (by simp)⟩
  case skp x =>
    have hx : (s.reg x).toNat ≤ 15 := Nat.not_lt.mp fun h => hn 5 _ ⟨h, rfl, rfl⟩
    exact ⟨_, exec_skp_of_le s.advance x hx, toNat_pc_skipIf_advance hpc (by simp [State.key])⟩
  case sknp x =>
    have hx : (s.reg x).toNat ≤ 15 := Nat.not_lt.mp fun h => hn 5 _ ⟨h, rfl, rfl⟩
    exact ⟨_, exec_sknp_of_le s.advance x hx, toNat_pc_skipIf_advance hpc (by simp [State.key])⟩
  case ldVxK x =>
    by_cases hk : s.ports.keys = 0
    · exact ⟨_, exec_ldVxK_of_none s.advance x hk, by simp [State.pcAfter, hk]⟩
    · obtain ⟨b, he⟩ := exec_ldVxK_of_pressed s.advance x hk
      exact ⟨_, he, by rw [State.setReg_pc, hadv, State.pcAfter, if_neg hk]⟩
  case drw x y n => exact ⟨_, exec_drw_of_inRange s.advance x y n (State.inRange_of_no_dataFault hn), hadv⟩
  case ldB x =>
    have hin := (State.inRange_of_no_dataFault hn).resolve_left (by omega)
    exact ⟨_, exec_ldB_of_inRange s.advance x hin, hadv⟩
  case stRegs x =>
    have hin := (State.inRange_of_no_dataFault hn).resolve_left (by omega)
    exact ⟨_, exec_stRegs_of_inRange s.advance x hin, hadv⟩
  case ldRegs x =>
    have hin := (State.inRange_of_no_dataFault hn).resolve_left (by omega)
    exact ⟨_, exec_ldRegs_of_inRange s.advance x hin, hadv⟩
  -- the meanings left never fault and do not write `PC`
  all_goals exact ⟨_, rfl, hadv⟩

/-- A `CALL` with room on the stack has pushed `pc0 + 2` at the old `SP` (R21, R72). -/
theorem exec_call_pushes_next {s u : State} {nnn : Addr12} (he : exec (.call nnn) s.advance = .next u)
    {j : Fin 16} (hj : j.val = s.sp.val) : u.stack.get j = s.pc + 2 := by
  have hsp : s.advance.sp.val < 16 := by
    have := j.isLt
    rw [State.advance_sp]
    omega
  rw [exec_call_of_lt s.advance nnn hsp] at he
  cases he
  simp [Vector.get_eq_getElem, hj]

end Sys2Proof.Machine

open Sys2Proof Sys2Proof.Machine

/-- Settles O13: a cycle that faults gives back the state it began with but for the latch and the load port; any other is
the execute step, whose `PC` is the table's, followed by a tick that leaves `PC` and the stack alone. -/
theorem pcFollowsTheTable : Obligations.PcFollowsTheTable := by
  intro s t i hr hi hstep
  rcases step_cases hr hi hstep with ⟨fc, fi, -, rfl⟩ | ⟨hn, u, he, hu, rfl⟩
  · exact ⟨nofun, fun _ => rfl, fun _ _ _ => nofun⟩
  · have hfv : u.fault.fv = false := by
      rw [hu]
      exact hr
    refine ⟨fun _ => ?_, fun hfault => ?_, ?_⟩
    · obtain ⟨v, hv, hpc⟩ := exec_pcAfter (State.pc_le_of_instrAt hi) i hn
      rw [he] at hv
      cases hv
      exact hpc
    · exact absurd (hfv.symm.trans hfault) (by decide)
    · rintro nnn j rfl - hj
      exact exec_call_pushes_next he hj
end

section
/-! The reset state (spec/10_state.md R24): what each byte and each display cell reads as, the list of
its items, and that it meets the invariant of every run. -/

namespace Sys2Proof.Machine

/-- Memory lists nothing after reset, so an address reads as its reset content (R24). -/
@[simp] theorem State.byte_resetAt (base : FontBase) (a : Nat) : (State.resetAt base).byte a = resetByte base a := rfl

/-- The bytes from FONT_BASE on are the font table (R32). -/
theorem resetByte_font (base : FontBase) (j : Nat) : resetByte base (base.val + j) = fontTable.getD j 0 := by
  simp [resetByte]

/-- Every byte outside the font table is 0 (R24, R31). -/
theorem resetByte_outside {base : FontBase} {a : Nat} (h : a < base.val ∨ base.val + 80 ≤ a) : resetByte base a = 0 := by
  unfold resetByte
  split
  · have hlen : fontTable.length ≤ a - base.val := by
      have : fontTable.length = 80 := rfl
      omega
    exact List.getD_eq_default _ _ hlen
  · rfl

/-- Every cell of the display is off after reset (R24). -/
theorem Display.cell_resetAt (base : FontBase) (px py : Nat) : (State.resetAt base).disp.cell px py = false := by
  simp [Display.cell, State.resetAt]

/-- Every general register is 0 after reset (R24). -/
theorem State.reg_resetAt (base : FontBase) (x : RegIdx) : (State.resetAt base).reg x = 0 := by
  simp [State.reg, State.resetAt]

/-- Every stack entry is 0 after reset (R24). -/
theorem State.stack_resetAt (base : FontBase) (j : Fin 16) : (State.resetAt base).stack.get j = 0 := by
  simp [Vector.get_eq_getElem, State.resetAt]

/-- The reset state meets the invariant, at every FONT_BASE. -/
theorem State.inv_resetAt (base : FontBase) : (State.resetAt base).Inv := by
  have hpc : (0x200 : Word).toNat ≤ 0x10FE := by decide
  have hstack : ∀ j : Fin 16, j.val < (State.resetAt base).sp.val → ((State.resetAt base).stack.get j).toNat ≤ 0x1000 :=
    fun j hj => absurd hj (Nat.not_lt_zero _)
  have hlatch : (State.resetAt base).LatchOk := Or.inl ⟨rfl, rfl, rfl⟩
  exact ⟨Memory.wf_nil, hpc, hstack, hlatch, nofun⟩

end Sys2Proof.Machine

open Sys2Proof Sys2Proof.Machine

/-- Settles O11: `State.reset` is the reset state at the default FONT_BASE. -/
theorem resetMeetsInvariant : Obligations.ResetMeetsInvariant :=
  ⟨State.inv_resetAt _, State.inv_resetAt⟩

/-- Settles O57, item by item: the registers, the stack, the display and memory by their lemmas, every other item by the
definition of the reset state. -/
theorem resetStateIsAsListed : Obligations.ResetStateIsAsListed := by
  refine ⟨rfl, ?_⟩
  rintro base s rfl
  exact ⟨rfl, State.reg_resetAt base, rfl, rfl, rfl, State.stack_resetAt base, rfl, rfl, Display.cell_resetAt base,
    fun j _ => resetByte_font base j, fun a ha => resetByte_outside ha, rfl, rfl, rfl, rfl, rfl⟩
end

section
/-! The program load (spec/20_memory.md R42, R43): its equation for an image that fits and for one that does not, and when a
state refuses every load. -/

namespace Sys2Proof.Machine

/-! ### An open load port -/

/-- An image that fits is written at 0x200, and the port is closed (R43). -/
theorem State.load_of_fits {s : State} {img : List Byte} (ho : s.ports.loadOpen = true) (hl : img.length ≤ 3584) :
    s.load img = .loaded (s.writeBytes 0x200 img).closeLoad := by
  simp only [State.load, imageFits, ho, hl, if_true, decide_true]

/-- An image that does not fit closes the port and does nothing else (R43; log entry 10). -/
theorem State.load_of_too_long {s : State} {img : List Byte} (ho : s.ports.loadOpen = true) (hl : 3584 < img.length) :
    s.load img = .capacityExceeded s.closeLoad := by
  simp [State.load, imageFits, ho, hl]

/-! ### A closed load port -/

/-- A load is refused exactly where the port is closed, whatever the image (R42). -/
theorem State.load_eq_refused_iff (s : State) (img : List Byte) :
    s.load img = .refused ↔ s.ports.loadOpen = false := by
  refine ⟨fun h => ?_, fun h => State.load_of_closed h img⟩
  rcases State.load_cases s img with ⟨hc, -⟩ | ⟨-, -, hload⟩ | ⟨-, -, hload⟩
  · exact hc
  · cases hload.symm.trans h
  · cases hload.symm.trans h

/-- A load that is taken, whatever its result, closes the port (R195; log entry 10). -/
theorem State.loadOpen_of_load {s t : State} {img : List Byte} (h : (s.load img).state = some t) :
    t.ports.loadOpen = false := by
  rcases State.load_cases s img with ⟨-, hload⟩ | ⟨-, -, hload⟩ | ⟨-, -, hload⟩ <;> rw [hload] at h
  · cases h
  · cases h; rfl
  · cases h; rfl

/-- No step opens the port: a halted core stays as it is, and a running one closes it (R42, R184). -/
theorem loadOpen_of_step_of_closed {s t : State} (hc : s.ports.loadOpen = false) (h : step s = .next t) :
    t.ports.loadOpen = false := by
  cases hfv : s.fault.fv with
  | false => exact loadOpen_of_step hfv h
  | true =>
    rw [step_of_halted hfv] at h
    cases h
    exact hc

end Sys2Proof.Machine

open Sys2Proof Sys2Proof.Machine

/-- Settles O54: an open port takes an image that fits as one write inside memory, and writes nothing of any other; a closed
one refuses it. -/
theorem loadCopiesTheWholeImageOrNothing : Obligations.LoadCopiesTheWholeImageOrNothing := by
  refine ⟨fun s img hwf ho hl => ?_, fun s img ho hl => State.load_of_too_long ho hl, fun s img hc => ?_⟩
  · have hin : 0x200 + img.length ≤ 4096 := by omega
    exact ⟨_, State.load_of_fits ho hl, rfl, State.byte_writeBytes hwf hin⟩
  · rw [State.load_of_closed hc]
    exact ⟨rfl, rfl, rfl⟩

/-- Settles O55: a load, a step of a running core and a step from a closed port leave the port closed; the host's inputs do
not touch it; reset, and the reset input, open it. -/
theorem loadHappensAtMostOnce : Obligations.LoadHappensAtMostOnce := by
  refine ⟨fun _ => rfl, fun s t img img' h => ?_, fun s t img hr h => ?_, fun s t img img' hload h => ?_,
    fun s img img' k ks bs hload => ?_, fun _ => rfl⟩
  · exact State.load_of_closed (State.loadOpen_of_load h) img'
  · exact State.load_of_closed (loadOpen_of_step hr h) img
  · have hc := (State.load_eq_refused_iff s img).mp hload
    exact State.load_of_closed (loadOpen_of_step_of_closed hc h) img'
  · have hc := (State.load_eq_refused_iff s img).mp hload
    exact ⟨State.load_of_closed (s := s.driveKeys k) hc img', State.load_of_closed (s := s.planInputs ks bs) hc img'⟩
end

section
/-! Encoding (spec/30_encoding.md): decoding undoes encoding; encoding what a canonical word decodes to gives the word back;
the two-level decoder against the flat opcode map. -/

namespace Sys2Proof

/-! ### Decoding an encoded instruction -/

/-- Decoding undoes encoding: each level of the decoder reads back the field that `encode` packed there (R62, R63). -/
theorem decode_encode (i : Instr) : decode (encode i) = i := by
  cases i
  case cls | ret | nop => rfl
  -- the group alone selects the instruction
  case jp | call | seImm | sneImm | seReg | ldImm | addImm | sneReg | ldI | jpV0 | rnd | drw => simp [encode, decode]
  -- the low nibble selects in groups 8 and E, the low byte in group F
  case ldReg | orReg | andReg | xorReg | addReg | subReg | shr | subnReg | shl => simp [encode, decode, decodeT8]
  case skp | sknp => simp [encode, decode, decodeTE]
  case ldVxDt | ldVxK | ldDtVx | ldStVx | addI | ldF | ldB | stRegs | ldRegs => simp [encode, decode, decodeTF]

/-! ### A word is its fields (R51, R52) -/

/-- A register field packed again is the nibble it was read from. -/
theorem regField_fieldX (w : Word) : regField (fieldX w) = w.extractLsb' 8 4 := rfl

/-- The same for the second register field. -/
theorem regField_fieldY (w : Word) : regField (fieldY w) = w.extractLsb' 4 4 := rfl

/-- Format NNN covers every bit of a word. -/
theorem packNNN_fields (w : Word) : packNNN (fieldOp w) (fieldNNN w) = w := by
  ext i hi
  interval_cases i <;> simp [packNNN, fieldOp, fieldNNN]

/-- Format XKK covers every bit of a word. -/
theorem packXKK_fields (w : Word) : packXKK (fieldOp w) (fieldX w) (fieldKK w) = w := by
  ext i hi
  interval_cases i <;> simp [packXKK, regField_fieldX, fieldOp, fieldKK]

/-- Format XYN covers every bit of a word. -/
theorem packXYN_fields (w : Word) : packXYN (fieldOp w) (fieldX w) (fieldY w) (fieldN w) = w := by
  ext i hi
  interval_cases i <;> simp [packXYN, regField_fieldX, regField_fieldY, fieldOp, fieldN]

/-- The low nibble of a word is the low nibble of its low byte. -/
theorem fieldN_eq_extractLsb'_fieldKK (w : Word) : fieldN w = (fieldKK w).extractLsb' 0 4 := by
  ext i hi
  interval_cases i <;> simp [fieldN, fieldKK]

/-! ### Which words of a group are canonical (R62, column "canonical"; R64, R65) -/

/-- Group 0: `CLS`, `RET` and NOP are one word each. -/
theorem canonicalWord_op0 {w : Word} (hop : fieldOp w = 0x0) :
    canonicalWord w = true ↔ w = 0x00E0 ∨ w = 0x00EE ∨ w = 0x0001 := by
  have h : w.extractLsb' 12 4 = 0x0 := hop
  simp [canonicalWord, h, or_assoc]

/-- Groups 5 and 9: the ignored low nibble is 0. -/
theorem canonicalWord_op5_op9 {w : Word} (hop : fieldOp w = 0x5 ∨ fieldOp w = 0x9) :
    canonicalWord w = true ↔ fieldN w = 0x0 := by
  have h : w.extractLsb' 12 4 = 0x5 ∨ w.extractLsb' 12 4 = 0x9 := hop
  rcases h with h | h <;> simp [canonicalWord, h, fieldN]

/-- Group 8: the low nibble selects an instruction, and the ignored `y` of a shift is 0 (log entry 6). -/
theorem canonicalWord_op8 {w : Word} (hop : fieldOp w = 0x8) :
    canonicalWord w = true ↔
      fieldN w ∈ [0x0#4, 0x1#4, 0x2#4, 0x3#4, 0x4#4, 0x5#4, 0x7#4] ∨ fieldN w ∈ [0x6#4, 0xE#4] ∧ fieldY w = 0 := by
  have h : w.extractLsb' 12 4 = 0x8#4 := hop
  simp only [canonicalWord, h, fieldN, fieldY]
  generalize w.extractLsb' 0 4 = n
  generalize w.extractLsb' 4 4 = y
  clear h hop
  revert n y
  decide

/-- Group E: the low byte of `SKP` or of `SKNP`. -/
theorem canonicalWord_opE {w : Word} (hop : fieldOp w = 0xE) :
    canonicalWord w = true ↔ fieldKK w = 0x9E ∨ fieldKK w = 0xA1 := by
  have h : w.extractLsb' 12 4 = 0xE := hop
  simp [canonicalWord, h, fieldKK]

/-- Group F: the low byte of one of its nine instructions. -/
theorem canonicalWord_opF {w : Word} (hop : fieldOp w = 0xF) :
    canonicalWord w = true ↔ fieldKK w ∈ [0x07#8, 0x0A#8, 0x15#8, 0x18#8, 0x1E#8, 0x29#8, 0x33#8, 0x55#8, 0x65#8] := by
  have h : w.extractLsb' 12 4 = 0xF := hop
  simp [canonicalWord, h, fieldKK, ← BitVec.toNat_inj]

/-! ### Encoding a decoded canonical word -/

/-- In format NNN every bit is a field, so every word comes back (R52). -/
theorem encode_decode_formatNNN {w : Word} (hop : fieldOp w ∈ [0x1#4, 0x2#4, 0xA#4, 0xB#4]) : encode (decode w) = w := by
  have hw := packNNN_fields w
  simp only [List.mem_cons, List.not_mem_nil, or_false] at hop
  rcases hop with hop | hop | hop | hop <;> simpa [decode, encode, hop] using hw

/-- The same in format XKK. -/
theorem encode_decode_formatXKK {w : Word} (hop : fieldOp w ∈ [0x3#4, 0x4#4, 0x6#4, 0x7#4, 0xC#4]) :
    encode (decode w) = w := by
  have hw := packXKK_fields w
  simp only [List.mem_cons, List.not_mem_nil, or_false] at hop
  rcases hop with hop | hop | hop | hop | hop <;> simpa [decode, encode, hop] using hw

/-- The canonical words of group 0 are three fixed words. -/
theorem encode_decode_op0 {w : Word} (hop : fieldOp w = 0x0) (hc : canonicalWord w = true) : encode (decode w) = w := by
  rcases (canonicalWord_op0 hop).mp hc with rfl | rfl | rfl <;> rfl

/-- In the groups of format XY the low nibble is the only one `encode` fixes. -/
theorem encode_decode_op5_op9 {w : Word} (hop : fieldOp w = 0x5 ∨ fieldOp w = 0x9) (hc : canonicalWord w = true) :
    encode (decode w) = w := by
  have hn := (canonicalWord_op5_op9 hop).mp hc
  have hw := packXYN_fields w
  rcases hop with hop | hop <;> simpa [decode, encode, hop, hn] using hw

/-- In group 8 the selector comes back as it was; `SHR` and `SHL` write `y = 0` (R64, log entry 6). -/
theorem encode_decode_op8 {w : Word} (hop : fieldOp w = 0x8) (hc : canonicalWord w = true) : encode (decode w) = w := by
  have hw := packXYN_fields w
  rcases (canonicalWord_op8 hop).mp hc with hn | ⟨hn, hy⟩ <;>
    simp only [List.mem_cons, List.not_mem_nil, or_false] at hn
  · rcases hn with hn | hn | hn | hn | hn | hn | hn <;> simpa [decode, decodeT8, encode, hop, hn] using hw
  · rcases hn with hn | hn <;> simpa [decode, decodeT8, encode, hop, hn, hy] using hw

/-- In format XYN every bit is a field. -/
theorem encode_decode_opD {w : Word} (hop : fieldOp w = 0xD) : encode (decode w) = w := by
  simpa [decode, encode, hop] using packXYN_fields w

/-- In group E the decoder examines the low nibble and `encode` fixes the low byte. -/
theorem encode_decode_opE {w : Word} (hop : fieldOp w = 0xE) (hc : canonicalWord w = true) : encode (decode w) = w := by
  have hw := packXKK_fields w
  rcases (canonicalWord_opE hop).mp hc with hk | hk <;>
    simpa [decode, decodeTE, encode, hop, hk, fieldN_eq_extractLsb'_fieldKK] using hw

/-- In group F the decoder and `encode` both go by the low byte. -/
theorem encode_decode_opF {w : Word} (hop : fieldOp w = 0xF) (hc : canonicalWord w = true) : encode (decode w) = w := by
  have hw := packXKK_fields w
  have hk := (canonicalWord_opF hop).mp hc
  simp only [List.mem_cons, List.not_mem_nil, or_false] at hk
  rcases hk with hk | hk | hk | hk | hk | hk | hk | hk | hk <;> simpa [decode, decodeTF, encode, hop, hk] using hw

/-- Group by group: encoding what a canonical word decodes to gives the word back (R62). -/
theorem encode_decode_of_canonicalWord {w : Word} (hc : canonicalWord w = true) : encode (decode w) = w := by
  have hgroups : ∀ op : Nibble, op ∈ [0x1#4, 0x2#4, 0xA#4, 0xB#4] ∨ op ∈ [0x3#4, 0x4#4, 0x6#4, 0x7#4, 0xC#4] ∨
      op = 0x0 ∨ (op = 0x5 ∨ op = 0x9) ∨ op = 0x8 ∨ op = 0xD ∨ op = 0xE ∨ op = 0xF := by decide
  rcases hgroups (fieldOp w) with hop | hop | hop | hop | hop | hop | hop | hop
  · exact encode_decode_formatNNN hop
  · exact encode_decode_formatXKK hop
  · exact encode_decode_op0 hop hc
  · exact encode_decode_op5_op9 hop hc
  · exact encode_decode_op8 hop hc
  · exact encode_decode_opD hop
  · exact encode_decode_opE hop hc
  · exact encode_decode_opF hop hc

open Laws in
/-- `encode` writes canonical words only (R62, R65). -/
theorem canonicalWord_encode : ∀ i : Instr, canonicalWord (encode i) = true
  | .cls => CanonicalWord.cls
  | .ret => CanonicalWord.ret
  | .jp nnn => CanonicalWord.jp nnn
  | .call nnn => CanonicalWord.call nnn
  | .seImm x kk => CanonicalWord.seImm x kk
  | .sneImm x kk => CanonicalWord.sneImm x kk
  | .seReg x y => CanonicalWord.seReg x y
  | .ldImm x kk => CanonicalWord.ldImm x kk
  | .addImm x kk => CanonicalWord.addImm x kk
  | .ldReg x y => CanonicalWord.ldReg x y
  | .orReg x y => CanonicalWord.orReg x y
  | .andReg x y => CanonicalWord.andReg x y
  | .xorReg x y => CanonicalWord.xorReg x y
  | .addReg x y => CanonicalWord.addReg x y
  | .subReg x y => CanonicalWord.subReg x y
  | .shr x => CanonicalWord.shr x
  | .subnReg x y => CanonicalWord.subnReg x y
  | .shl x => CanonicalWord.shl x
  | .sneReg x y => CanonicalWord.sneReg x y
  | .ldI nnn => CanonicalWord.ldI nnn
  | .jpV0 nnn => CanonicalWord.jpV0 nnn
  | .rnd x kk => CanonicalWord.rnd x kk
  | .drw x y n => CanonicalWord.drw x y n
  | .skp x => CanonicalWord.skp x
  | .sknp x => CanonicalWord.sknp x
  | .ldVxDt x => CanonicalWord.ldVxDt x
  | .ldVxK x => CanonicalWord.ldVxK x
  | .ldDtVx x => CanonicalWord.ldDtVx x
  | .ldStVx x => CanonicalWord.ldStVx x
  | .addI x => CanonicalWord.addI x
  | .ldF x => CanonicalWord.ldF x
  | .ldB x => CanonicalWord.ldB x
  | .stRegs x => CanonicalWord.stRegs x
  | .ldRegs x => CanonicalWord.ldRegs x
  | .nop => CanonicalWord.nop

/-! ### Disjoint rows -/

/-- A row's test as an equation of words (R62). -/
theorem OpcodeRow.accepts_iff (r : OpcodeRow) (w : Word) : r.accepts w = true ↔ w &&& r.mask = r.pattern := by
  simp [OpcodeRow.accepts]

/-- Disjoint rows accept no common word: the bit they fix differently would have two values. -/
theorem OpcodeRow.not_accepts_of_disjoint {r q : OpcodeRow} {w : Word} (hd : r.disjoint q = true)
    (hr : r.accepts w = true) : ¬q.accepts w = true := by
  intro hq
  rw [accepts_iff] at hr hq
  have hzero : (r.pattern ^^^ q.pattern) &&& (r.mask &&& q.mask) = 0 := by
    rw [← hr, ← hq]
    ext i hi
    simp only [BitVec.getElem_and, BitVec.getElem_xor]
    cases w[i] <;> cases r.mask[i] <;> cases q.mask[i] <;> simp
  simp [OpcodeRow.disjoint, hzero] at hd

/-- In a list of disjoint rows, a row that accepts a word is the only one. -/
theorem filter_accepts_eq_singleton {rows : List OpcodeRow} (hd : rows.Pairwise fun r q => r.disjoint q = true)
    {r : OpcodeRow} {w : Word} (hr : r ∈ rows) (hw : r.accepts w = true) :
    rows.filter (fun q => q.accepts w) = [r] := by
  have hmem : r ∈ rows.filter (fun q => q.accepts w) := List.mem_filter.mpr ⟨hr, hw⟩
  have hacc : ∀ q ∈ rows.filter (fun q => q.accepts w), q.accepts w = true := fun q hq => (List.mem_filter.mp hq).2
  have hpair := hd.filter (fun q => q.accepts w)
  generalize rows.filter (fun q => q.accepts w) = accepting at hmem hacc hpair ⊢
  match accepting with
  | [] => cases hmem
  | [q] => rw [List.mem_singleton.mp hmem]
  | q :: q' :: _ =>
    have hdis : q.disjoint q' = true := List.rel_of_pairwise_cons hpair List.mem_cons_self
    exact absurd (hacc q' (by simp)) (OpcodeRow.not_accepts_of_disjoint hdis (hacc q (by simp)))

/-! ### The bits the decoder examines (R54 to R60) -/

/-- The groups whose instruction the group alone selects (R54). -/
def opGroups : List Nibble := [0x1, 0x2, 0x3, 0x4, 0x5, 0x6, 0x7, 0x9, 0xA, 0xB, 0xC, 0xD]

/-- The groups whose instruction the low nibble selects (R55 to R57). -/
def nibbleGroups : List Nibble := [0x0, 0x8, 0xE]

/-- The bits the decoder examines in a word of group `op`; in group F the low byte selects (R58). -/
def selectorMask (op : Nibble) : Word :=
  if op = 0xF then 0xF0FF else if op ∈ nibbleGroups then 0xF00F else 0xF000

/-- `w` with the bits cleared that the decoder does not examine (R60). -/
def selectorWord (w : Word) : Word := w &&& selectorMask (fieldOp w)

/-- Every group is of one of the three kinds. -/
theorem group_cases : ∀ op : Nibble, op ∈ opGroups ∨ op ∈ nibbleGroups ∨ op = 0xF := by decide

/-- The masks F000 of R62 belong to these groups. -/
theorem selectorMask_of_opGroups : ∀ op ∈ opGroups, selectorMask op = 0xF000 := by decide

/-- The masks F00F of R62 belong to these groups. -/
theorem selectorMask_of_nibbleGroups : ∀ op ∈ nibbleGroups, selectorMask op = 0xF00F := by decide

/-- Where the group alone selects, the group is all the decoder examines. -/
theorem selectorWord_of_opGroups {w : Word} (h : fieldOp w ∈ opGroups) :
    selectorWord w = packXYN (fieldOp w) 0 0 0 := by
  rw [selectorWord, selectorMask_of_opGroups _ h]
  ext i hi
  interval_cases i <;> simp [packXYN, regField, fieldOp]

/-- Where the low nibble selects, the decoder examines the group and that nibble. -/
theorem selectorWord_of_nibbleGroups {w : Word} (h : fieldOp w ∈ nibbleGroups) :
    selectorWord w = packXYN (fieldOp w) 0 0 (fieldN w) := by
  rw [selectorWord, selectorMask_of_nibbleGroups _ h]
  ext i hi
  interval_cases i <;> simp [packXYN, regField, fieldOp, fieldN]

/-- In group F the decoder examines the group and the low byte. -/
theorem selectorWord_of_opF {w : Word} (h : fieldOp w = 0xF) :
    selectorWord w = packXKK (fieldOp w) 0 (fieldKK w) := by
  have hmask : selectorMask (fieldOp w) = 0xF0FF := by rw [h]; rfl
  rw [selectorWord, hmask]
  ext i hi
  interval_cases i <;> simp [packXKK, regField, fieldOp, fieldKK]

/-- The group is always examined. -/
theorem fieldOp_selectorWord (w : Word) : fieldOp (selectorWord w) = fieldOp w := by
  rcases group_cases (fieldOp w) with h | h | h
  · rw [selectorWord_of_opGroups h, fieldOp_packXYN]
  · rw [selectorWord_of_nibbleGroups h, fieldOp_packXYN]
  · rw [selectorWord_of_opF h, fieldOp_packXKK]

/-- Group 0 goes to sub-table T0 (R54). -/
theorem decode_op0 {w : Word} (h : fieldOp w = 0x0) : decode w = decodeT0 w := by simp [decode, h]

/-- Group 8 goes to sub-table T8. -/
theorem decode_op8 {w : Word} (h : fieldOp w = 0x8) : decode w = decodeT8 w := by simp [decode, h]

/-- Group E goes to sub-table TE. -/
theorem decode_opE {w : Word} (h : fieldOp w = 0xE) : decode w = decodeTE w := by simp [decode, h]

/-- Group F goes to sub-table TF. -/
theorem decode_opF {w : Word} (h : fieldOp w = 0xF) : decode w = decodeTF w := by simp [decode, h]

/-- Bits the decoder does not examine do not change which instruction it reads (R60). -/
theorem mnemonic_decode_selectorWord (w : Word) : (decode (selectorWord w)).mnemonic = (decode w).mnemonic := by
  have hop := fieldOp_selectorWord w
  rcases group_cases (fieldOp w) with h | h | h
  · simp only [opGroups, List.mem_cons, List.not_mem_nil, or_false] at h
    rcases h with h | h | h | h | h | h | h | h | h | h | h | h <;> simp only [decode, hop, h] <;> rfl
  · have hn : fieldN (selectorWord w) = fieldN w := by rw [selectorWord_of_nibbleGroups h, fieldN_packXYN]
    simp only [nibbleGroups, List.mem_cons, List.not_mem_nil, or_false] at h
    rcases h with h | h | h
    · rw [decode_op0 (hop.trans h), decode_op0 h]
      simp only [decodeT0, hn]
    · rw [decode_op8 (hop.trans h), decode_op8 h]
      simp only [decodeT8, hn]
      split <;> rfl
    · rw [decode_opE (hop.trans h), decode_opE h]
      simp only [decodeTE, hn]
      split <;> rfl
  · have hkk : fieldKK (selectorWord w) = fieldKK w := by rw [selectorWord_of_opF h, fieldKK_packXKK]
    rw [decode_opF (hop.trans h), decode_opF h]
    simp only [decodeTF, hkk]
    split <;> rfl

/-! ### The rows of R62 -/

/-- No instruction but NOP has the name NOP. -/
theorem Instr.mnemonic_eq_NOP_iff (i : Instr) : i.mnemonic = "NOP" ↔ i = .nop := by
  cases i <;> simp [Instr.mnemonic]

/-- Each row's mask is what the decoder examines in its group, and its pattern decodes to the instruction it names. -/
theorem opcodeRows_mask_name : ∀ r ∈ opcodeRows,
    r.mask = selectorMask (fieldOp r.pattern) ∧ (decode r.pattern).mnemonic = r.mnemonic ∧ r.mnemonic ≠ "NOP" := by
  decide

/-- Every group that selects alone has its row. -/
theorem mem_patterns_of_opGroups : ∀ op ∈ opGroups, packXYN op 0 0 0 ∈ opcodeRows.map OpcodeRow.pattern := by decide

/-- Every nibble that selects an instruction has its row. -/
theorem mem_patterns_of_nibbleGroups : ∀ op ∈ nibbleGroups, ∀ n : Nibble, decode (packXYN op 0 0 n) ≠ .nop →
    packXYN op 0 0 n ∈ opcodeRows.map OpcodeRow.pattern := by decide

/-- Every low byte that selects an instruction of group F has its row. -/
theorem mem_patterns_of_opF : ∀ kk : Byte, decode (packXKK 0xF 0 kk) ≠ .nop →
    packXKK 0xF 0 kk ∈ opcodeRows.map OpcodeRow.pattern := by decide

/-- What the decoder examines of a word, where it is not NOP, is the pattern of a row (R59). -/
theorem selectorWord_mem_patterns {w : Word} (hd : decode (selectorWord w) ≠ .nop) :
    selectorWord w ∈ opcodeRows.map OpcodeRow.pattern := by
  rcases group_cases (fieldOp w) with h | h | h
  · rw [selectorWord_of_opGroups h]
    exact mem_patterns_of_opGroups _ h
  · rw [selectorWord_of_nibbleGroups h] at hd ⊢
    exact mem_patterns_of_nibbleGroups _ h _ hd
  · rw [selectorWord_of_opF h, h] at hd ⊢
    exact mem_patterns_of_opF _ hd

/-- No mask of R62 hides a bit of the group. -/
theorem fieldOp_and_selectorMask (w : Word) (op : Nibble) : fieldOp (w &&& selectorMask op) = fieldOp w := by
  unfold selectorMask
  split
  · exact (fields_of_mask_sel8 rfl).1.symm
  · split
    · exact (fields_of_mask_sel4 rfl).1.symm
    · exact (fieldOp_of_mask rfl).symm

/-- A row accepts a word exactly when its pattern is what the decoder examines of the word. -/
theorem accepts_iff_selectorWord {r : OpcodeRow} (hr : r ∈ opcodeRows) (w : Word) :
    r.accepts w = true ↔ selectorWord w = r.pattern := by
  obtain ⟨hmask, -, -⟩ := opcodeRows_mask_name r hr
  rw [OpcodeRow.accepts_iff, hmask]
  constructor <;> intro h
  · have hop : fieldOp w = fieldOp r.pattern := by
      rw [← h, fieldOp_and_selectorMask]
    rw [selectorWord, hop, h]
  · rw [← h, fieldOp_selectorWord]
    rfl

end Sys2Proof

open Sys2Proof Sys2Proof.Machine

/-- Settles O1: the bytes of a word decode as the word does, and decoding undoes encoding. -/
theorem decodeEncodeAgree : Obligations.DecodeEncodeAgree := by
  intro i rest
  rw [decodeBytes_bytesOfWord, decode_encode]

/-- Settles O2: what a canonical word decodes to encodes back to it, and `encode` writes canonical words only. -/
theorem canonicalWordsReencode : Obligations.CanonicalWordsReencode := by
  intro w
  refine ⟨encode_decode_of_canonicalWord, fun h => ?_⟩
  rw [← h]
  exact canonicalWord_encode _

/-- Settles O4: a check of the 34 rows against each other. -/
theorem opcodeRowsDisjoint : Obligations.OpcodeRowsDisjoint := by
  unfold Obligations.OpcodeRowsDisjoint
  decide

/-- Settles O3: a row that accepts a word has for its pattern the bits the decoder examines, so it names what the word
decodes to; any word but a NOP has such a row, and the rows being disjoint it is the only one. -/
theorem decoderFollowsOpcodeRows : Obligations.DecoderFollowsOpcodeRows := by
  intro w
  obtain ⟨-, hdisjoint⟩ := opcodeRowsDisjoint
  split
  next hnop =>
    rw [List.map_eq_nil_iff, List.filter_eq_nil_iff]
    intro r hr hacc
    obtain ⟨-, hname, hne⟩ := opcodeRows_mask_name r hr
    rw [← (accepts_iff_selectorWord hr w).mp hacc, mnemonic_decode_selectorWord, hnop] at hname
    exact hne hname.symm
  next hnop =>
    have hsel : decode (selectorWord w) ≠ .nop := by
      rwa [Ne, ← Instr.mnemonic_eq_NOP_iff, mnemonic_decode_selectorWord, Instr.mnemonic_eq_NOP_iff]
    obtain ⟨r, hr, hpat⟩ := List.mem_map.mp (selectorWord_mem_patterns hsel)
    have hacc := (accepts_iff_selectorWord hr w).mpr hpat.symm
    obtain ⟨-, hname, -⟩ := opcodeRows_mask_name r hr
    rw [filter_accepts_eq_singleton hdisjoint hr hacc, List.map_singleton, ← hname, hpat, mnemonic_decode_selectorWord]

/-- Settles O5: each word is decoded. -/
theorem specWordsDecode : Obligations.SpecWordsDecode := by
  unfold Obligations.SpecWordsDecode
  decide

/-- Settles O8: `exec_cases` read at the state before the fetch advance, where both of its cases answer a next state. -/
theorem everyInstructionAnswers : Obligations.EveryInstructionAnswers := by
  intro i s
  have hs : State.advance { s with pc := s.pc - 2 } = s := by simp [State.advance]
  rcases exec_cases i { s with pc := s.pc - 2 } with ⟨_, _, -, he⟩ | ⟨-, t, he, -⟩
  · exact ⟨_, hs ▸ he⟩
  · exact ⟨t, hs ▸ he⟩
end

section
/-! Control flow (spec/40_control_flow.md): which words are NOP and what one of them does, the jump, the skips on equality, and
the jump to itself that ends a run (spec/70_reset_and_hazards.md R227). -/

namespace Sys2Proof

/-! ### The decoder -/

/-- Group 1 is `JP` (R54). -/
theorem decode_op1 {w : Word} (h : fieldOp w = 0x1) : decode w = .jp (fieldNNN w) := by simp [decode, h]

/-- Group 3 is `SE Vx, kk`. -/
theorem decode_op3 {w : Word} (h : fieldOp w = 0x3) : decode w = .seImm (fieldX w) (fieldKK w) := by simp [decode, h]

/-- Group 5 is `SE Vx, Vy`. -/
theorem decode_op5 {w : Word} (h : fieldOp w = 0x5) : decode w = .seReg (fieldX w) (fieldY w) := by simp [decode, h]

/-- The nibbles that select nothing in group 0 (R55). -/
theorem decodeT0_eq_nop_iff (w : Word) : decodeT0 w = .nop ↔ fieldN w ≠ 0x0 ∧ fieldN w ≠ 0xE := by
  unfold decodeT0
  split <;> simp_all

/-- The nibbles that select nothing in group 8 (R56). -/
theorem decodeT8_eq_nop_iff (w : Word) : decodeT8 w = .nop ↔ 8 ≤ (fieldN w).toNat ∧ fieldN w ≠ 0xE := by
  unfold decodeT8
  split
  case h_10 =>
    have hlow : ∀ n : Nibble, n ∉ [0x0#4, 0x1#4, 0x2#4, 0x3#4, 0x4#4, 0x5#4, 0x6#4, 0x7#4] → 8 ≤ n.toNat := by decide
    simp_all
  all_goals simp_all

/-- The nibbles that select nothing in group E (R57). -/
theorem decodeTE_eq_nop_iff (w : Word) : decodeTE w = .nop ↔ fieldN w ≠ 0x1 ∧ fieldN w ≠ 0xE := by
  unfold decodeTE
  split <;> simp_all

/-- The low bytes that select nothing in group F (R58). -/
theorem decodeTF_eq_nop_iff (w : Word) :
    decodeTF w = .nop ↔ (fieldKK w).toNat ∉ [0x07, 0x0A, 0x15, 0x18, 0x1E, 0x29, 0x33, 0x55, 0x65] := by
  unfold decodeTF
  split <;> simp_all [← BitVec.toNat_inj]

/-- A group that selects alone has an instruction for every word (R54). -/
theorem decode_ne_nop_of_opGroups {w : Word} (h : fieldOp w ∈ opGroups) : decode w ≠ .nop := by
  simp only [opGroups, List.mem_cons, List.not_mem_nil, or_false] at h
  rcases h with h | h | h | h | h | h | h | h | h | h | h | h <;> simp [decode, h]

/-- The words that select nothing, in the four groups with a sub-table (R70). -/
theorem decode_eq_nop_iff (w : Word) :
    decode w = .nop ↔
      (fieldOp w = 0x0 ∧ fieldN w ≠ 0x0 ∧ fieldN w ≠ 0xE) ∨
      (fieldOp w = 0x8 ∧ 8 ≤ (fieldN w).toNat ∧ fieldN w ≠ 0xE) ∨
      (fieldOp w = 0xE ∧ fieldN w ≠ 0x1 ∧ fieldN w ≠ 0xE) ∨
      (fieldOp w = 0xF ∧ (fieldKK w).toNat ∉ [0x07, 0x0A, 0x15, 0x18, 0x1E, 0x29, 0x33, 0x55, 0x65]) := by
  rcases group_cases (fieldOp w) with h | h | h
  · have hsub : ∀ op ∈ opGroups, op ≠ 0x0 ∧ op ≠ 0x8 ∧ op ≠ 0xE ∧ op ≠ 0xF := by decide
    obtain ⟨h0, h8, hE, hF⟩ := hsub _ h
    simp only [decode_ne_nop_of_opGroups h, h0, h8, hE, hF, false_and, or_false]
  · simp only [nibbleGroups, List.mem_cons, List.not_mem_nil, or_false] at h
    rcases h with h | h | h
    · rw [decode_op0 h, decodeT0_eq_nop_iff]
      simp [h]
    · rw [decode_op8 h, decodeT8_eq_nop_iff]
      simp [h]
    · rw [decode_opE h, decodeTE_eq_nop_iff]
      simp [h]
  · rw [decode_opF h, decodeTF_eq_nop_iff]
    simp [h]

end Sys2Proof

namespace Sys2Proof.Machine

/-! ### The meanings -/

/-- NOP is `execNop`, which changes nothing (R70). -/
theorem exec_nop (s : State) : exec .nop s = .next s := rfl

/-- `JP` writes `PC` alone (R71). -/
theorem exec_jp (nnn : Addr12) (s : State) : exec (.jp nnn) s = .next { s with pc := addrWord nnn } := rfl

/-- A skip on a test that decides `P` writes `PC` alone, as `P` says (R74 to R77). -/
theorem skipIf_of_iff {c : Bool} {P : Prop} [Decidable P] (h : c = true ↔ P) (s : State) :
    skipIf c s = { s with pc := if P then s.pc + 2 else s.pc } := by
  simp only [skipIf_eq, h]

/-- `SE Vx, kk` skips on equality (R74). -/
theorem exec_seImm (x : RegIdx) (kk : Byte) (s : State) :
    exec (.seImm x kk) s = .next { s with pc := if s.reg x = kk then s.pc + 2 else s.pc } :=
  congrArg Host.Outcome.next (skipIf_of_iff beq_iff_eq s)

/-- `SE Vx, Vy` skips on equality (R76). -/
theorem exec_seReg (x y : RegIdx) (s : State) :
    exec (.seReg x y) s = .next { s with pc := if s.reg x = s.reg y then s.pc + 2 else s.pc } :=
  congrArg Host.Outcome.next (skipIf_of_iff beq_iff_eq s)

/-! ### The jump to itself -/

/-- A jump to the address it was fetched from undoes the fetch advance (R71). -/
theorem exec_jp_self {s : State} {nnn : Addr12} (h : nnn.toNat = s.pc.toNat) : exec (.jp nnn) s.advance = .next s := by
  have hpc : addrWord nnn = s.pc := BitVec.eq_of_toNat_eq ((toNat_addrWord nnn).trans h)
  rw [exec_jp, hpc]
  rfl

/-- At the end of a run a cycle does nothing but end: the timers tick and the host moves (R227). -/
theorem State.AtEndOfRun.step_eq {s : State} (h : s.AtEndOfRun) : step s = .next s.tick.hostTurn.closeLoad := by
  obtain ⟨hr, nnn, hi, hn⟩ := h
  exact step_of_exec hr hi (exec_jp_self hn) rfl

/-- The end of a cycle leaves the latch, memory and `PC` alone, so the next cycle is at the same jump. -/
theorem State.AtEndOfRun.tick_hostTurn_closeLoad {s : State} (h : s.AtEndOfRun) : s.tick.hostTurn.closeLoad.AtEndOfRun := by
  obtain ⟨hr, nnn, hi, hn⟩ := h
  exact ⟨hr, nnn, (State.instrAt_congr rfl rfl rfl).trans hi, hn⟩

end Sys2Proof.Machine

open Sys2Proof Sys2Proof.Machine

/-- Settles O24, by induction on the number of cycles: each takes the end of a run to the end of a run, one tick later. -/
theorem jumpToSelfIsTheEndOfRun : Obligations.JumpToSelfIsTheEndOfRun := by
  intro s n h
  induction n generalizing s with
  | zero => exact ⟨s, run_zero s, h, rfl, rfl, rfl⟩
  | succ n ih =>
    obtain ⟨t, hrun, hend, hframe, hdt, hst⟩ := ih _ h.tick_hostTurn_closeLoad
    have hdt' : t.dt.toNat = s.dt.toNat - 1 - n := hdt.trans (congrArg (· - n) (toNat_tickTimer s.dt))
    have hst' : t.st.toNat = s.st.toNat - 1 - n := hst.trans (congrArg (· - n) (toNat_tickTimer s.st))
    exact ⟨t, (run_succ n h.step_eq).trans hrun, hend, hframe, by omega, by omega⟩

/-- Settles O26: the decoder's sub-tables say which words are NOP; NOP leaves the state as the fetch advance made it, and
the end of the cycle ticks. -/
theorem nopDoesNothing : Obligations.NopDoesNothing := by
  refine ⟨fun w => (decode_eq_nop_iff w).symm, exec_nop, fun s hr hi => ?_⟩
  exact ⟨_, step_of_exec hr hi (exec_nop s.advance) rfl, rfl, toNat_tickTimer s.dt, toNat_tickTimer s.st⟩

/-- Settles O31: the group selects the instruction, and the skip writes `PC` as the equality says. -/
theorem skipIfEqual : Obligations.SkipIfEqual :=
  ⟨fun _ hw => decode_op3 (fieldOp_of_mask hw), fun _ hw => decode_op5 (fieldOp_of_mask hw), exec_seImm, exec_seReg⟩

/-- Settles O27: the group selects the jump, which writes `PC` alone. -/
theorem jumpSetsPc : Obligations.JumpSetsPc :=
  ⟨fun _ hw => decode_op1 (fieldOp_of_mask hw), exec_jp⟩
end

section
/-! Loads and moves (spec/41_load_move.md): the two loads of a general register and the load of the index register. -/

namespace Sys2Proof

/-! ### The decoder -/

/-- Group 6 is `LD Vx, kk` (R54). -/
theorem decode_op6 {w : Word} (h : fieldOp w = 0x6) : decode w = .ldImm (fieldX w) (fieldKK w) := by simp [decode, h]

/-- Group A is `LD I, nnn`. -/
theorem decode_opA {w : Word} (h : fieldOp w = 0xA) : decode w = .ldI (fieldNNN w) := by simp [decode, h]

/-- Nibble 0 of sub-table T8 is `LD Vx, Vy` (R56). -/
theorem decodeT8_n0 {w : Word} (h : fieldN w = 0x0) : decodeT8 w = .ldReg (fieldX w) (fieldY w) := by simp [decodeT8, h]

end Sys2Proof

namespace Sys2Proof.Machine

/-! ### The meanings -/

/-- `LD Vx, kk` writes the immediate to the destination (R90). -/
theorem exec_ldImm (x : RegIdx) (kk : Byte) (s : State) : exec (.ldImm x kk) s = .next (s.setReg x kk) := rfl

/-- `LD Vx, Vy` writes the source register's value to the destination (R91). -/
theorem exec_ldReg (x y : RegIdx) (s : State) : exec (.ldReg x y) s = .next (s.setReg x (s.reg y)) := rfl

/-- `LD I, nnn` writes `I` alone (R92). -/
theorem exec_ldI (nnn : Addr12) (s : State) : exec (.ldI nnn) s = .next { s with idx := addrWord nnn } := rfl

/-- What a meaning that writes one register leaves: the register file alone may differ, and it differs at most there. -/
theorem setReg_of_exec {i : Instr} {s : State} {x : RegIdx} {b : Byte} (h : exec i s = .next (s.setReg x b)) :
    ∃ t, exec i s = .next t ∧ t = { s with v := t.v } ∧ ∀ r : RegIdx, t.reg r = if r = x then b else s.reg r :=
  ⟨s.setReg x b, h, rfl, fun r => State.reg_setReg s x r b⟩

end Sys2Proof.Machine

open Sys2Proof Sys2Proof.Machine

/-- Settles O33: the group, and in group 8 the low nibble, selects the instruction; the register loads write one register,
and the index load writes `I` with the address widened to a word. -/
theorem loadsSetTheirDestination : Obligations.LoadsSetTheirDestination := by
  refine ⟨fun w hw => decode_op6 (fieldOp_of_mask hw), fun w hw => ?_, fun w hw => decode_opA (fieldOp_of_mask hw),
    fun x kk s => setReg_of_exec (exec_ldImm x kk s), fun x y s => setReg_of_exec (exec_ldReg x y s),
    fun nnn s => ⟨_, exec_ldI nnn s, rfl, toNat_addrWord nnn⟩⟩
  obtain ⟨hop, hn⟩ := fields_of_mask_sel4 hw
  exact (decode_op8 hop).trans (decodeT8_n0 hn)
end

section
/-! Arithmetic on two registers (spec/42_arithmetic.md): the flag and the result come from the operands as they stood, the
flag is written first and the destination after it (R100). -/

namespace Sys2Proof

/-! ### The decoder -/

/-- Nibble 4 of sub-table T8 is `ADD Vx, Vy` (R56). -/
theorem decodeT8_n4 {w : Word} (h : fieldN w = 0x4) : decodeT8 w = .addReg (fieldX w) (fieldY w) := by simp [decodeT8, h]

/-- Nibble 5 of sub-table T8 is `SUB Vx, Vy`. -/
theorem decodeT8_n5 {w : Word} (h : fieldN w = 0x5) : decodeT8 w = .subReg (fieldX w) (fieldY w) := by simp [decodeT8, h]

/-- Nibble 7 of sub-table T8 is `SUBN Vx, Vy`. -/
theorem decodeT8_n7 {w : Word} (h : fieldN w = 0x7) : decodeT8 w = .subnReg (fieldX w) (fieldY w) := by simp [decodeT8, h]

/-- Under the mask of sub-table T8 a pattern of group 8 fixes the group and the nibble, so what the nibble selects is what
the word decodes to. -/
theorem decodesAs_of_decodeT8 {pattern : Word} {f : Word → Instr} (hop : fieldOp pattern = 0x8)
    (hsel : ∀ {w : Word}, fieldN w = fieldN pattern → decodeT8 w = f w) : Machine.DecodesAs 0xF00F pattern f := by
  intro w hw
  obtain ⟨hwop, hwn⟩ := fields_of_mask_sel4 hw
  exact (decode_op8 (hwop.trans hop)).trans (hsel hwn)

/-! ### Bytes as numbers -/

/-- The difference of bytes is the integer difference modulo 256 (R105). -/
theorem toNat_byte_sub (a b : Byte) : ((a - b).toNat : Int) = (a.toNat - b.toNat : Int) % 256 := by
  rw [BitVec.toNat_sub]
  omega

end Sys2Proof

namespace Sys2Proof.Machine

/-- `carryFlag` is 1 exactly when the exact sum exceeds 255 (R102). -/
@[simp] theorem toNat_carryFlag (a b : Byte) : (carryFlag a b).toNat = if a.toNat + b.toNat > 255 then 1 else 0 := by
  simp only [carryFlag, toNat_flagByte, decide_eq_true_eq]

/-- `noBorrowFlag` is 1 exactly when the minuend is strictly greater (R103, R104). -/
@[simp] theorem toNat_noBorrowFlag (a b : Byte) : (noBorrowFlag a b).toNat = if a.toNat > b.toNat then 1 else 0 := by
  simp only [noBorrowFlag, toNat_flagByte, decide_eq_true_eq]

/-! ### The meanings -/

/-- `ADD Vx, Vy` writes the carry, then the sum (R102). -/
theorem exec_addReg (x y : RegIdx) (s : State) :
    exec (.addReg x y) s = .next (s.setFlagThenReg (carryFlag (s.reg x) (s.reg y)) x (s.reg x + s.reg y)) := rfl

/-- `SUB Vx, Vy` writes the flag of `V[x] > V[y]`, then the difference (R103). -/
theorem exec_subReg (x y : RegIdx) (s : State) :
    exec (.subReg x y) s = .next (s.setFlagThenReg (noBorrowFlag (s.reg x) (s.reg y)) x (s.reg x - s.reg y)) := rfl

/-- `SUBN Vx, Vy` writes the flag of `V[y] > V[x]`, then the reversed difference (R104). -/
theorem exec_subnReg (x y : RegIdx) (s : State) :
    exec (.subnReg x y) s = .next (s.setFlagThenReg (noBorrowFlag (s.reg y) (s.reg x)) x (s.reg y - s.reg x)) := rfl

/-- What a meaning that writes a flag and then a register leaves (R100): the register file alone may differ, the
destination holds the result even where it is VF, and VF holds the flag where it is not the destination. -/
theorem setFlagThenReg_of_exec {i : Instr} {s : State} {f : Byte} {x : RegIdx} {b : Byte}
    (h : exec i s = .next (s.setFlagThenReg f x b)) :
    ∃ t, exec i s = .next t ∧ t = { s with v := t.v } ∧ t.reg x = b ∧ (x ≠ 15 → t.reg 15 = f) ∧
      ∀ r : RegIdx, r ≠ x → r ≠ 15 → t.reg r = s.reg r := by
  refine ⟨s.setFlagThenReg f x b, h, rfl, ?_, fun hx => ?_, fun r hrx hrf => ?_⟩
  · rw [State.reg_setFlagThenReg, if_pos rfl]
  · rw [State.reg_setFlagThenReg, if_neg hx.symm, if_pos rfl]
  · rw [State.reg_setFlagThenReg, if_neg hrx, if_neg hrf]

/-- What a meaning that subtracts `V[q]` from `V[p]` leaves, whichever of the two is the destination (R103, R104). -/
theorem subtraction_of_exec {i : Instr} {s : State} {x p q : RegIdx}
    (h : exec i s = .next (s.setFlagThenReg (noBorrowFlag (s.reg p) (s.reg q)) x (s.reg p - s.reg q))) :
    ∃ t, exec i s = .next t ∧ t = { s with v := t.v } ∧
      ((t.reg x).toNat : Int) = ((s.reg p).toNat - (s.reg q).toNat : Int) % 256 ∧
      (x ≠ 15 → (t.reg 15).toNat = if (s.reg p).toNat > (s.reg q).toNat then 1 else 0) ∧
      ∀ r : RegIdx, r ≠ x → r ≠ 15 → t.reg r = s.reg r := by
  obtain ⟨t, he, hframe, hdest, hflag, hrest⟩ := setFlagThenReg_of_exec h
  refine ⟨t, he, hframe, ?_, fun hx => ?_, hrest⟩
  · rw [hdest, toNat_byte_sub]
  · rw [hflag hx, toNat_noBorrowFlag]

end Sys2Proof.Machine

open Sys2Proof Sys2Proof.Machine

/-- Settles O35: the nibble selects the instruction, which writes the carry and then the sum. -/
theorem addRegistersSetsCarry : Obligations.AddRegistersSetsCarry := by
  refine ⟨decodesAs_of_decodeT8 rfl decodeT8_n4, fun x y s => ?_⟩
  obtain ⟨t, he, hframe, hdest, hflag, hrest⟩ := setFlagThenReg_of_exec (exec_addReg x y s)
  refine ⟨t, he, hframe, ?_, fun hx => ?_, hrest⟩
  · rw [hdest, BitVec.toNat_add]
  · rw [hflag hx, toNat_carryFlag]

/-- Settles O36: the nibble selects the instruction, a subtraction of `V[y]` from `V[x]`. -/
theorem subtractSetsStrictNoBorrow : Obligations.SubtractSetsStrictNoBorrow :=
  ⟨decodesAs_of_decodeT8 rfl decodeT8_n5, fun x y s => subtraction_of_exec (exec_subReg x y s)⟩

/-- Settles O37: the nibble selects the instruction, a subtraction of `V[x]` from `V[y]`. -/
theorem reverseSubtractSetsStrictNoBorrow : Obligations.ReverseSubtractSetsStrictNoBorrow :=
  ⟨decodesAs_of_decodeT8 rfl decodeT8_n7, fun x y s => subtraction_of_exec (exec_subnReg x y s)⟩
end

section
/-! Logic and shifts (spec/43_logic_shift.md): the bitwise operations write the destination alone (R110 to R112); a shift
saves the bit it loses in VF, then writes the destination (R113, R114). -/

namespace Sys2Proof

/-! ### The decoder -/

/-- Nibble 1 of sub-table T8 is `OR Vx, Vy` (R56). -/
theorem decodeT8_n1 {w : Word} (h : fieldN w = 0x1) : decodeT8 w = .orReg (fieldX w) (fieldY w) := by simp [decodeT8, h]

/-- Nibble 2 of sub-table T8 is `AND Vx, Vy`. -/
theorem decodeT8_n2 {w : Word} (h : fieldN w = 0x2) : decodeT8 w = .andReg (fieldX w) (fieldY w) := by simp [decodeT8, h]

/-- Nibble 3 of sub-table T8 is `XOR Vx, Vy`. -/
theorem decodeT8_n3 {w : Word} (h : fieldN w = 0x3) : decodeT8 w = .xorReg (fieldX w) (fieldY w) := by simp [decodeT8, h]

/-- Nibble 6 of sub-table T8 is `SHR Vx`, whatever the `y` field. -/
theorem decodeT8_n6 {w : Word} (h : fieldN w = 0x6) : decodeT8 w = .shr (fieldX w) := by simp [decodeT8, h]

/-- Nibble E of sub-table T8 is `SHL Vx`, whatever the `y` field. -/
theorem decodeT8_nE {w : Word} (h : fieldN w = 0xE) : decodeT8 w = .shl (fieldX w) := by simp [decodeT8, h]

/-! ### Shifted bytes as numbers -/

/-- A right shift by one halves a byte (R113). -/
theorem toNat_byte_shiftRight_one (a : Byte) : (a >>> 1).toNat = a.toNat / 2 := by
  rw [BitVec.toNat_ushiftRight, Nat.shiftRight_eq_div_pow, Nat.pow_one]

/-- A left shift by one doubles a byte modulo 256 (R114). -/
theorem toNat_byte_shiftLeft_one (a : Byte) : (a <<< 1).toNat = 2 * a.toNat % 256 := by
  rw [BitVec.toNat_shiftLeft, Nat.shiftLeft_eq, Nat.pow_one, Nat.mul_comm]

end Sys2Proof

namespace Sys2Proof.Machine

/-- The flag of bit `n` is that bit as a number. -/
theorem toNat_flagByte_getLsbD (a : Byte) (n : Nat) : (flagByte (a.getLsbD n)).toNat = a.toNat / 2 ^ n % 2 := by
  rw [toNat_flagByte, ← BitVec.testBit_toNat, ← Nat.toNat_testBit]
  cases a.toNat.testBit n <;> rfl

/-- `lowBitFlag` is what halving loses (R113). -/
@[simp] theorem toNat_lowBitFlag (a : Byte) : (lowBitFlag a).toNat = a.toNat % 2 := by
  rw [lowBitFlag, toNat_flagByte_getLsbD, Nat.pow_zero, Nat.div_one]

/-- `highBitFlag` is what doubling carries out (R114). -/
@[simp] theorem toNat_highBitFlag (a : Byte) : (highBitFlag a).toNat = a.toNat / 128 := by
  have hlt := a.isLt
  rw [highBitFlag, toNat_flagByte_getLsbD]
  omega

/-! ### The meanings -/

/-- `OR Vx, Vy` writes the destination (R110). -/
theorem exec_orReg (x y : RegIdx) (s : State) : exec (.orReg x y) s = .next (s.setReg x (s.reg x ||| s.reg y)) := rfl

/-- `AND Vx, Vy` writes the destination (R111). -/
theorem exec_andReg (x y : RegIdx) (s : State) : exec (.andReg x y) s = .next (s.setReg x (s.reg x &&& s.reg y)) := rfl

/-- `XOR Vx, Vy` writes the destination (R112). -/
theorem exec_xorReg (x y : RegIdx) (s : State) : exec (.xorReg x y) s = .next (s.setReg x (s.reg x ^^^ s.reg y)) := rfl

/-- `SHR Vx` writes the low bit to VF, then the half (R113). -/
theorem exec_shr (x : RegIdx) (s : State) :
    exec (.shr x) s = .next (s.setFlagThenReg (lowBitFlag (s.reg x)) x (s.reg x >>> 1)) := rfl

/-- `SHL Vx` writes the high bit to VF, then the double (R114). -/
theorem exec_shl (x : RegIdx) (s : State) :
    exec (.shl x) s = .next (s.setFlagThenReg (highBitFlag (s.reg x)) x (s.reg x <<< 1)) := rfl

/-- What a meaning that writes `b` to one register leaves, where every bit of `b` is `f` of the bits of two operands: the
destination holds those bits, and nothing else changes (R110 to R112). -/
theorem bitwise_of_exec {i : Instr} {s : State} {x y : RegIdx} {b : Byte} (f : Bool → Bool → Bool)
    (h : exec i s = .next (s.setReg x b)) (hf : ∀ n, b.getLsbD n = f ((s.reg x).getLsbD n) ((s.reg y).getLsbD n)) :
    ∃ t, exec i s = .next t ∧ t = { s with v := t.v } ∧
      (∀ n, (t.reg x).getLsbD n = f ((s.reg x).getLsbD n) ((s.reg y).getLsbD n)) ∧
      ∀ r : RegIdx, r ≠ x → t.reg r = s.reg r := by
  obtain ⟨t, he, hframe, hreg⟩ := setReg_of_exec h
  refine ⟨t, he, hframe, fun n => ?_, fun r hr => ?_⟩
  · rw [hreg, if_pos rfl, hf]
  · rw [hreg, if_neg hr]

/-- What a meaning that writes a flag and then a register leaves, with the flag and the result as numbers (R113, R114). -/
theorem flagAndResult_of_exec {i : Instr} {s : State} {x : RegIdx} {f b : Byte} {flag result : Nat}
    (h : exec i s = .next (s.setFlagThenReg f x b)) (hb : b.toNat = result) (hf : f.toNat = flag) :
    ∃ t, exec i s = .next t ∧ t = { s with v := t.v } ∧ (t.reg x).toNat = result ∧ (x ≠ 15 → (t.reg 15).toNat = flag) ∧
      ∀ r : RegIdx, r ≠ x → r ≠ 15 → t.reg r = s.reg r := by
  obtain ⟨t, he, hframe, hdest, hflag, hrest⟩ := setFlagThenReg_of_exec h
  refine ⟨t, he, hframe, ?_, fun hx => ?_, hrest⟩
  · rw [hdest, hb]
  · rw [hflag hx, hf]

end Sys2Proof.Machine

open Sys2Proof Sys2Proof.Machine

/-- Settles O38: the nibble selects the instruction, and the byte it writes is the operation bit by bit. -/
theorem logicWorksBitwise : Obligations.LogicWorksBitwise :=
  ⟨decodesAs_of_decodeT8 rfl decodeT8_n1, decodesAs_of_decodeT8 rfl decodeT8_n2, decodesAs_of_decodeT8 rfl decodeT8_n3,
    fun x y s => bitwise_of_exec or (exec_orReg x y s) fun _ => BitVec.getLsbD_or,
    fun x y s => bitwise_of_exec and (exec_andReg x y s) fun _ => BitVec.getLsbD_and,
    fun x y s => bitwise_of_exec Bool.xor (exec_xorReg x y s) fun _ => BitVec.getLsbD_xor⟩

/-- Settles O39: the nibble selects the instruction, which writes the low bit and then the half. -/
theorem shiftRightSavesLowBit : Obligations.ShiftRightSavesLowBit :=
  ⟨decodesAs_of_decodeT8 rfl decodeT8_n6, fun x s =>
    flagAndResult_of_exec (exec_shr x s) (toNat_byte_shiftRight_one _) (toNat_lowBitFlag _)⟩

/-- Settles O40: the nibble selects the instruction, which writes the high bit and then the double. -/
theorem shiftLeftSavesHighBit : Obligations.ShiftLeftSavesHighBit :=
  ⟨decodesAs_of_decodeT8 rfl decodeT8_nE, fun x s =>
    flagAndResult_of_exec (exec_shl x s) (toNat_byte_shiftLeft_one _) (toNat_highBitFlag _)⟩
end

section
/-! The random instruction (spec/44_random.md): the byte on the random port under a mask, one byte of the port consumed. -/

namespace Sys2Proof

/-- Group C is `RND Vx, kk` (R120). -/
theorem decode_opC {w : Word} (h : fieldOp w = 0xC) : decode w = .rnd (fieldX w) (fieldKK w) := by simp [decode, h]

end Sys2Proof

namespace Sys2Proof.Machine

/-- With no byte lined up the byte drawn is the free value at the number of bytes drawn so far. -/
theorem State.randInput_nil {s : State} (h : s.ports.randPlan = []) : s.randInput = Config.randByte s.ports.randTurn := by
  simp [State.randInput, h]

/-- A draw takes the first lined-up byte, if there is one, and is counted; it changes nothing but the random port (R121). -/
theorem State.consumeRand_eq (s : State) :
    s.consumeRand =
      { s with ports := { s.ports with randPlan := s.ports.randPlan.drop 1, randTurn := s.ports.randTurn + 1 } } := by
  rw [List.drop_one, State.consumeRand]

/-- `RND Vx, kk` consumes the byte on the random port and writes it under the mask (R120, R121). -/
theorem exec_rnd (x : RegIdx) (kk : Byte) (s : State) :
    exec (.rnd x kk) s = .next (s.consumeRand.setReg x (s.randInput &&& kk)) := rfl

end Sys2Proof.Machine

open Sys2Proof Sys2Proof.Machine

/-- Settles O41: the group selects the instruction; the destination holds the drawn byte under the mask, whichever way the
port supplies it, and the draw changes nothing but the random port. -/
theorem randomIsMasked : Obligations.RandomIsMasked := by
  refine ⟨fun w hw => decode_opC (fieldOp_of_mask hw), fun x kk s => ?_⟩
  have hdest : (s.consumeRand.setReg x (s.randInput &&& kk)).reg x = s.randInput &&& kk := by
    rw [State.reg_setReg, if_pos rfl]
  refine ⟨_, exec_rnd x kk s, ?_, fun b rest hplan => ?_, fun hplan => ?_, fun b hb => ?_, fun r hr => ?_⟩
  · rw [State.consumeRand_eq]; rfl
  · rw [hdest, State.randInput_cons hplan]
  · rw [hdest, State.randInput_nil hplan]
  · rw [hdest, BitVec.getLsbD_and, hb, Bool.and_false]
  · rw [State.reg_setReg, if_neg hr, State.reg_consumeRand]
end

section
/-! The display (spec/45_display.md): CLS turns every cell off; DRW toggles the cells its sprite covers and reports in VF whether
one of them was on; a second draw of the same sprite undoes the first. -/

namespace Sys2Proof

/-! ### The decoder -/

/-- Group D is `DRW Vx, Vy, n` (R54). -/
theorem decode_opD {w : Word} (h : fieldOp w = 0xD) : decode w = .drw (fieldX w) (fieldY w) (fieldN w) := by simp [decode, h]

/-- Nibble 0 of sub-table T0 is `CLS`, whatever the other two nibbles (R55, R60). -/
theorem decodeT0_n0 {w : Word} (h : fieldN w = 0x0) : decodeT0 w = .cls := by simp [decodeT0, h]

end Sys2Proof

namespace Sys2Proof.Machine

/-! ### Clearing -/

/-- Every cell of the cleared display is off. -/
@[simp] theorem Display.cell_allOff (px py : Nat) : Display.allOff.cell px py = false := by
  simp [Display.cell, Display.allOff]

/-- `CLS` writes the display alone (R129). -/
theorem exec_cls (s : State) : exec .cls s = .next { s with disp := Display.allOff } := rfl

/-! ### What a draw covers and leaves -/

/-- Only a cell of the screen can be on. -/
theorem Display.lt_of_cell {d : Display} {px py : Nat} (h : d.cell px py = true) : px < 64 ∧ py < 32 := by
  by_contra hout
  rw [Display.cell_outside d (by omega)] at h
  cases h

/-- Cell `(px, py)` is under a 1 bit of the sprite that `DRW Vx, Vy, n` draws in this state (R126). -/
def State.drawCovers (s : State) (x y : RegIdx) (n : Nibble) (px py : Nat) : Bool :=
  spriteCovers (startColumn s x) (startRow s y) (s.spriteRows n) px py

/-- The state after `DRW Vx, Vy, n` with the sprite inside memory (`exec_drw_eq_drawn`). -/
def State.drawn (s : State) (x y : RegIdx) (n : Nibble) : State :=
  State.setReg { s with disp := (drawSprite (startColumn s x) (startRow s y) (s.spriteRows n) s.disp).1 } vf
    (flagByte (drawSprite (startColumn s x) (startRow s y) (s.spriteRows n) s.disp).2)

/-- A draw writes the registers and the display alone. -/
theorem State.drawn_frame (s : State) (x y : RegIdx) (n : Nibble) :
    s.drawn x y n = { s with v := (s.drawn x y n).v, disp := (s.drawn x y n).disp } := rfl

/-- A draw toggles the covered cells of the screen and no other (R125, R127). -/
theorem State.cell_drawn (s : State) (x y : RegIdx) (n : Nibble) {px py : Nat} (hx : px < 64) (hy : py < 32) :
    (s.drawn x y n).disp.cell px py = (s.disp.cell px py ^^ s.drawCovers x y n px py) :=
  cell_drawSprite _ _ _ s.disp px py hx hy

/-- The flag a draw writes is its collision (R128). -/
theorem State.reg_vf_drawn (s : State) (x y : RegIdx) (n : Nibble) :
    (s.drawn x y n).reg vf = flagByte (drawSprite (startColumn s x) (startRow s y) (s.spriteRows n) s.disp).2 := by
  rw [State.drawn, State.reg_setReg, if_pos rfl]

/-- VF is 1 after a draw over a cell that was on. -/
theorem State.reg_vf_drawn_of_hit {s : State} {x y : RegIdx} {n : Nibble} {px py : Nat}
    (hc : s.drawCovers x y n px py = true) (hon : s.disp.cell px py = true) : (s.drawn x y n).reg vf = 1 := by
  rw [State.reg_vf_drawn, (hit_drawSprite _ _ _ s.disp).mpr ⟨px, py, hc, hon⟩]
  rfl

/-- VF is 0 after a draw over no cell that was on. -/
theorem State.reg_vf_drawn_of_no_hit {s : State} {x y : RegIdx} {n : Nibble}
    (h : ∀ px py, s.disp.cell px py = true → s.drawCovers x y n px py = false) : (s.drawn x y n).reg vf = 0 := by
  have hno : (drawSprite (startColumn s x) (startRow s y) (s.spriteRows n) s.disp).2 = false := by
    rw [Bool.eq_false_iff]
    intro hhit
    obtain ⟨px, py, hc, hon⟩ := (hit_drawSprite _ _ _ s.disp).mp hhit
    exact Bool.false_ne_true ((h px py hon).symm.trans hc)
  rw [State.reg_vf_drawn, hno]
  rfl

/-- A draw writes no register but VF. -/
theorem State.reg_drawn_of_ne (s : State) (x y : RegIdx) (n : Nibble) {r : RegIdx} (hr : r ≠ vf) :
    (s.drawn x y n).reg r = s.reg r := by
  rw [State.drawn, State.reg_setReg, if_neg hr, State.reg_update]

/-- A draw at coordinates that are not in VF leaves what the same draw covers: it writes neither the coordinates, nor `I`,
nor memory. -/
theorem State.drawCovers_drawn (s : State) {x y : RegIdx} (n : Nibble) (hx : x ≠ vf) (hy : y ≠ vf) :
    (s.drawn x y n).drawCovers x y n = s.drawCovers x y n := by
  have hcol : startColumn (s.drawn x y n) x = startColumn s x := by
    simp only [startColumn, State.reg_drawn_of_ne s x y n hx]
  have hrow : startRow (s.drawn x y n) y = startRow s y := by
    simp only [startRow, State.reg_drawn_of_ne s x y n hy]
  have hrows : (s.drawn x y n).spriteRows n = s.spriteRows n := rfl
  funext px py
  simp only [State.drawCovers, hcol, hrow, hrows]

/-- The same draw twice, at coordinates that are not in VF, toggles every covered cell twice. -/
theorem State.disp_drawn_drawn (s : State) {x y : RegIdx} (n : Nibble) (hx : x ≠ vf) (hy : y ≠ vf) :
    ((s.drawn x y n).drawn x y n).disp = s.disp := by
  refine Display.ext_cells fun px py hpx hpy => ?_
  rw [State.cell_drawn _ x y n hpx hpy, State.drawCovers_drawn s n hx hy, State.cell_drawn s x y n hpx hpy, Bool.xor_assoc,
    Bool.xor_self, Bool.xor_false]

/-- A covered cell that was off before the first of two draws is on before the second, which reports it. -/
theorem State.reg_vf_drawn_drawn_of_off {s : State} {x y : RegIdx} {n : Nibble} {px py : Nat} (hx : x ≠ vf) (hy : y ≠ vf)
    (hpx : px < 64) (hpy : py < 32) (hc : s.drawCovers x y n px py = true) (hoff : s.disp.cell px py = false) :
    ((s.drawn x y n).drawn x y n).reg vf = 1 := by
  refine State.reg_vf_drawn_of_hit (px := px) (py := py) ?_ ?_
  · rw [State.drawCovers_drawn s n hx hy, hc]
  · rw [State.cell_drawn s x y n hpx hpy, hoff, hc, Bool.false_xor]

/-! ### The meaning of `DRW` -/

/-- The range check of a sprite of height `n` at `addr`, in the spec's form and in that of the access (R35). -/
theorem spriteInMemory_iff (addr : Word) (n : Nibble) :
    n = 0 ∨ addr.toNat + n.toNat - 1 ≤ 0xFFF ↔ n.toNat = 0 ∨ addr.toNat + n.toNat ≤ 4096 := by
  have h0 : n = 0 ↔ n.toNat = 0 := BitVec.toNat_inj.symm
  rw [h0]
  omega

/-- `DRW` over a sprite inside memory draws it (R126). -/
theorem exec_drw_eq_drawn {s : State} (x y : RegIdx) {n : Nibble} (h : n = 0 ∨ s.idx.toNat + n.toNat - 1 ≤ 0xFFF) :
    exec (.drw x y n) s = .next (s.drawn x y n) :=
  exec_drw_of_inRange s x y n ((spriteInMemory_iff s.idx n).mp h)

/-- `DRW` over a sprite that reaches past the end of memory raises `DataRange` (R35, R181). -/
theorem exec_drw_of_pastEnd {s : State} (x y : RegIdx) {n : Nibble} (h0 : n ≠ 0) (h : s.idx.toNat + n.toNat - 1 > 0xFFF) :
    exec (.drw x y n) s =
      .next { s with pc := s.pc - 2, fault := ⟨true, 2, BitVec.ofNat 16 (max s.idx.toNat 0x1000)⟩ } := by
  have hout : ¬(n.toNat = 0 ∨ s.idx.toNat + n.toNat ≤ 4096) := by
    rw [← spriteInMemory_iff]
    exact fun hin => hin.elim h0 (Nat.not_le.mpr h)
  simp only [exec, execDrw, State.memRead_eq, if_neg hout, raiseDataRange, raise_eq, dataRangeInfo_eq]
  rfl

end Sys2Proof.Machine

open Sys2Proof Sys2Proof.Machine

/-- Settles O25: the first draw leaves what the second covers, so each covered cell is toggled twice; one that was on collides
in the first draw, and one that was off in the second. -/
theorem drawingTwiceRestoresTheDisplay : Obligations.DrawingTwiceRestoresTheDisplay := by
  intro s x y n hx hy hin
  refine ⟨s.drawn x y n, (s.drawn x y n).drawn x y n, exec_drw_eq_drawn x y hin, exec_drw_eq_drawn x y hin,
    State.disp_drawn_drawn s n hx hy, ?_, fun px py hpx hpy => State.reg_vf_drawn_drawn_of_off hx hy hpx hpy⟩
  rintro ⟨px, py, hpx, hpy, hc⟩
  cases hcell : s.disp.cell px py with
  | true => exact Or.inl (State.reg_vf_drawn_of_hit hc hcell)
  | false => exact Or.inr (State.reg_vf_drawn_drawn_of_off hx hy hpx hpy hc hcell)

/-- Settles O42: group 0 with nibble 0 is the clear, which writes the display alone. -/
theorem clearTurnsEveryCellOff : Obligations.ClearTurnsEveryCellOff := by
  refine ⟨fun w hw => ?_, fun s => ⟨_, exec_cls s, rfl, Display.cell_allOff⟩⟩
  obtain ⟨hop, hn⟩ := fields_of_mask_sel4 hw
  exact (decode_op0 hop).trans (decodeT0_n0 hn)

/-- Settles O43: the group selects the instruction; in range it draws, past the end of memory it raises `DataRange`. -/
theorem drawTogglesCoveredCells : Obligations.DrawTogglesCoveredCells := by
  refine ⟨fun w hw => decode_opD (fieldOp_of_mask hw), fun x y n s hin => ?_,
    fun x y n s h0 hout => exec_drw_of_pastEnd x y h0 hout⟩
  refine ⟨s.drawn x y n, exec_drw_eq_drawn x y hin, State.drawn_frame s x y n, fun px py => State.cell_drawn s x y n, ?_,
    fun hno => State.reg_vf_drawn_of_no_hit fun px py hon => ?_, fun r => State.reg_drawn_of_ne s x y n⟩
  · rintro ⟨px, py, -, -, hon, hc⟩
    exact State.reg_vf_drawn_of_hit hc hon
  · obtain ⟨hpx, hpy⟩ := Display.lt_of_cell hon
    exact hno px py hpx hpy hon
end

section
/-! The key-wait (spec/46_keypad.md R143, R144): while no key is pressed a cycle at `LD Vx, K` does nothing but end; the first
level with a key pressed ends the wait. -/

namespace Sys2Proof.Machine

/-! ### The levels the cycles sample -/

/-- The host's move takes the first level it has lined up: the coming cycles sample the plan, in order (log entry 3). -/
theorem State.keys_cons_keyPlan_hostTurn {s : State} (h : s.ports.keyPlan ≠ []) :
    s.hostTurn.ports.keys :: s.hostTurn.ports.keyPlan = s.ports.keyPlan := by
  obtain ⟨k, rest, hplan⟩ := List.exists_cons_of_ne_nil h
  simp [hplan]

/-! ### The meaning of `LD Vx, K` -/

/-- With no key pressed the meaning undoes the fetch advance (R144). -/
theorem exec_ldVxK_advance_of_none {s : State} (x : RegIdx) (h : s.ports.keys = 0) : exec (.ldVxK x) s.advance = .next s := by
  rw [exec_ldVxK_of_none s.advance x h, State.advance_pc, pc_add_sub]
  rfl

/-- With key `j` the lowest one pressed the meaning writes its number (R143). -/
theorem exec_ldVxK_of_least {s : State} (x : RegIdx) {j : Fin 16} (hj : s.ports.keys.getLsbD j.val = true)
    (hlow : ∀ i : Fin 16, i < j → s.ports.keys.getLsbD i.val = false) :
    exec (.ldVxK x) s = .next (s.setReg x (BitVec.ofNat 8 j.val)) := by
  simp only [exec, execLdVxK, lowestKey_of_least hj hlow]

/-! ### The wait -/

/-- A running core at `LD Vx, K` whose next `n` cycles sample no key pressed, the cycle after them the levels `k`. -/
def State.AtKeyWait (s : State) (x : RegIdx) (n : Nat) (k : BitVec 16) (rest : List (BitVec 16)) : Prop :=
  s.Running ∧ s.instrAt = some (.ldVxK x) ∧ s.ports.keys :: s.ports.keyPlan = List.replicate n 0 ++ k :: rest

/-- `t` is `s` after `m` cycles of waiting, as far as `PC`, the registers, memory and the timers show. -/
def State.WaitedSince (t s : State) (m : Nat) : Prop :=
  t.pc = s.pc ∧ t.v = s.v ∧ t.mem = s.mem ∧ t.dt.toNat = s.dt.toNat - m ∧ t.st.toNat = s.st.toNat - m

section
variable {s : State} {x : RegIdx} {n : Nat} {k : BitVec 16} {rest : List (BitVec 16)}

/-- A cycle that samples no key does nothing but end: the timers tick and the host moves. -/
theorem State.AtKeyWait.step_eq (h : s.AtKeyWait x (n + 1) k rest) : step s = .next s.tick.hostTurn.closeLoad := by
  obtain ⟨hr, hi, hkeys⟩ := h
  have hnone : s.ports.keys = 0 := (List.cons.inj hkeys).1
  exact step_of_exec hr hi (exec_ldVxK_advance_of_none x hnone) rfl

/-- The end of such a cycle leaves the wait one cycle shorter. -/
theorem State.AtKeyWait.tick_hostTurn_closeLoad (h : s.AtKeyWait x (n + 1) k rest) :
    s.tick.hostTurn.closeLoad.AtKeyWait x n k rest := by
  obtain ⟨hr, hi, hkeys⟩ := h
  have hplan : s.ports.keyPlan = List.replicate n 0 ++ k :: rest := (List.cons.inj hkeys).2
  have hne : s.tick.ports.keyPlan ≠ [] := by simp [hplan]
  exact ⟨hr, (State.instrAt_congr rfl rfl rfl).trans hi, (State.keys_cons_keyPlan_hostTurn hne).trans hplan⟩

/-- Waiting composes: one cycle, then `m` more. -/
theorem State.WaitedSince.succ {t : State} {m : Nat} (h : t.WaitedSince s.tick.hostTurn.closeLoad m) :
    t.WaitedSince s (m + 1) := by
  obtain ⟨hpc, hv, hmem, hdt, hst⟩ := h
  have hdt' : t.dt.toNat = s.dt.toNat - 1 - m := hdt.trans (congrArg (· - m) (toNat_tickTimer s.dt))
  have hst' : t.st.toNat = s.st.toNat - 1 - m := hst.trans (congrArg (· - m) (toNat_tickTimer s.st))
  exact ⟨hpc, hv, hmem, by omega, by omega⟩

/-- `m` cycles of a wait of at least `m` lead to a wait that is `m` shorter, from which every longer run goes on. -/
theorem State.AtKeyWait.run_add {m : Nat} (h : s.AtKeyWait x (n + m) k rest) :
    ∃ t : State, t.AtKeyWait x n k rest ∧ t.WaitedSince s m ∧
      ∀ j, Sys2Proof.core.run (j + m) s = Sys2Proof.core.run j t := by
  induction m generalizing s with
  | zero => exact ⟨s, h, ⟨rfl, rfl, rfl, rfl, rfl⟩, fun _ => rfl⟩
  | succ m ih =>
    obtain ⟨t, hwait, hsince, hrun⟩ := ih h.tick_hostTurn_closeLoad
    exact ⟨t, hwait, hsince.succ, fun j => (run_succ (j + m) h.step_eq).trans (hrun j)⟩

/-- The cycle that samples the levels `k`, with `j` the lowest key pressed, ends the wait: it goes on past the instruction
with `j` in `V[x]`. -/
theorem State.AtKeyWait.step_of_least {j : RegIdx} (h : s.AtKeyWait x 0 k rest) (hj : k.getLsbD j.val = true)
    (hlow : ∀ i : RegIdx, i < j → k.getLsbD i.val = false) :
    step s = .next (s.advance.setReg x (BitVec.ofNat 8 j.val)).tick.hostTurn.closeLoad := by
  obtain ⟨hr, hi, hkeys⟩ := h
  obtain rfl : s.ports.keys = k := (List.cons.inj hkeys).1
  exact step_of_exec hr hi (exec_ldVxK_of_least (s := s.advance) x hj hlow) rfl

end

end Sys2Proof.Machine

open Sys2Proof Sys2Proof.Machine

/-- Settles O22: the wait samples `n + 1` levels with no key pressed; every part of it is a run to a shorter wait, and the
whole of it a run to the cycle that takes the key. -/
theorem keyWaitEndsWithTheFirstKey : Obligations.KeyWaitEndsWithTheFirstKey := by
  intro s x j n k rest hr hi hk hplan hj hlow
  have hwait : s.AtKeyWait x (n + 1) k rest := ⟨hr, hi, congrArg₂ List.cons hk hplan⟩
  constructor
  · intro m hm
    obtain ⟨d, hd⟩ := Nat.exists_eq_add_of_le' hm
    rw [hd] at hwait
    obtain ⟨t, -, hsince, hrun⟩ := hwait.run_add
    have hrun' : Sys2Proof.core.run m s = .next t := by rw [← Nat.zero_add m, hrun 0, run_zero]
    exact ⟨t, hrun', hsince⟩
  · rw [← Nat.zero_add (n + 1)] at hwait
    obtain ⟨t, hend, ⟨hpc, hv, -, hdt, -⟩, hrun⟩ := hwait.run_add
    have hrun' : Sys2Proof.core.run (n + 2) s = Sys2Proof.core.run 1 t := by
      rw [← hrun 1, Nat.add_comm 1]
    refine ⟨_, hrun'.trans (run_succ 0 (hend.step_of_least hj hlow)), congrArg (· + 2) hpc, ?_, fun r hne => ?_,
      (toNat_tickTimer t.dt).trans (by omega)⟩
    · have hlt : j.val < 256 := by omega
      simp [Nat.mod_eq_of_lt hlt]
    · simp [hne, State.reg_congr hv]
end

section
/-! The timers (spec/47_timers.md): the three moves between a register and a timer, and the tick that ends the same cycle. -/

namespace Sys2Proof

/-! ### The decoder -/

/-- Low byte 0x07 of sub-table TF is `LD Vx, DT` (R58). -/
theorem decodeTF_kk07 {w : Word} (h : fieldKK w = 0x07) : decodeTF w = .ldVxDt (fieldX w) := by simp [decodeTF, h]

/-- Low byte 0x15 of sub-table TF is `LD DT, Vx`. -/
theorem decodeTF_kk15 {w : Word} (h : fieldKK w = 0x15) : decodeTF w = .ldDtVx (fieldX w) := by simp [decodeTF, h]

/-- Low byte 0x18 of sub-table TF is `LD ST, Vx`. -/
theorem decodeTF_kk18 {w : Word} (h : fieldKK w = 0x18) : decodeTF w = .ldStVx (fieldX w) := by simp [decodeTF, h]

/-- Under the mask of sub-table TF a pattern of group F fixes the group and the low byte, so what the byte selects is what
the word decodes to. -/
theorem decodesAs_of_decodeTF {pattern : Word} {f : Word → Instr} (hop : fieldOp pattern = 0xF)
    (hsel : ∀ {w : Word}, fieldKK w = fieldKK pattern → decodeTF w = f w) : Machine.DecodesAs 0xF0FF pattern f := by
  intro w hw
  obtain ⟨hwop, hwkk⟩ := fields_of_mask_sel8 hw
  exact (decode_opF (hwop.trans hop)).trans (hsel hwkk)

end Sys2Proof

namespace Sys2Proof.Machine

/-! ### The meanings -/

/-- `LD Vx, DT` writes the delay timer's value to the destination (R150). -/
theorem exec_ldVxDt (x : RegIdx) (s : State) : exec (.ldVxDt x) s = .next (s.setReg x s.dt) := rfl

/-- `LD DT, Vx` writes the delay timer alone (R151). -/
theorem exec_ldDtVx (x : RegIdx) (s : State) : exec (.ldDtVx x) s = .next { s with dt := s.reg x } := rfl

/-- `LD ST, Vx` writes the sound timer alone (R152). -/
theorem exec_ldStVx (x : RegIdx) (s : State) : exec (.ldStVx x) s = .next { s with st := s.reg x } := rfl

end Sys2Proof.Machine

open Sys2Proof Sys2Proof.Machine

/-- Settles O47: the low byte selects the instruction, which moves one byte; the tick of the same cycle comes after the
move, so the register holds the delay timer's value before the tick and a written timer is already one less. -/
theorem timerInstructionsMoveBytes : Obligations.TimerInstructionsMoveBytes := by
  refine ⟨decodesAs_of_decodeTF rfl decodeTF_kk07, decodesAs_of_decodeTF rfl decodeTF_kk15,
    decodesAs_of_decodeTF rfl decodeTF_kk18, fun x s => setReg_of_exec (exec_ldVxDt x s), exec_ldDtVx, exec_ldStVx,
    fun x s hr hi => ?_, fun x s hr hi => ?_, fun x s hr hi => ?_⟩
  · have hread : (s.advance.setReg x s.dt).reg x = s.dt := by rw [State.reg_setReg, if_pos rfl]
    exact ⟨_, step_of_exec hr hi (exec_ldVxDt x s.advance) rfl, hread, toNat_tickTimer s.dt⟩
  · exact ⟨_, step_of_exec hr hi (exec_ldDtVx x s.advance) rfl, toNat_tickTimer (s.reg x)⟩
  · exact ⟨_, step_of_exec hr hi (exec_ldStVx x s.advance) rfl, toNat_tickTimer (s.reg x)⟩
end

section
/-! The fault table (spec/60_exceptions.md R180 to R186): its rows exclude each other, so a cycle latches the one whose condition
holds; a halted core stays as it is, and any other that can fetch executes what it decodes (spec/10_state.md R20). -/

namespace Sys2Proof.Machine

/-- A data access has one code and one information word. -/
theorem State.dataFault_unique {s : State} {n : Nat} {fc fc' : BitVec 3} {fi fi' : Nat} (h : s.dataFault n fc fi)
    (h' : s.dataFault n fc' fi') : fc = fc' ∧ fi = fi' := by
  obtain ⟨-, rfl, rfl⟩ := h
  obtain ⟨-, rfl, rfl⟩ := h'
  exact ⟨rfl, rfl⟩

/-- An instruction has at most one row of the fault table, so its code and information word are determined (R181). -/
theorem State.executeFaults_unique {s : State} {i : Instr} {fc fc' : BitVec 3} {fi fi' : Nat}
    (h : s.executeFaults fc fi i) (h' : s.executeFaults fc' fi' i) : fc = fc' ∧ fi = fi' := by
  cases i
  case drw | ldB | stRegs | ldRegs => exact State.dataFault_unique h h'
  case call | ret | skp | sknp =>
    obtain ⟨-, rfl, rfl⟩ := h
    obtain ⟨-, rfl, rfl⟩ := h'
    exact ⟨rfl, rfl⟩
  all_goals exact h.elim

/-- After the fetch advance, an instruction that meets a condition of the table gives back the state the cycle began with, the
row latched (R183). -/
theorem exec_advance_of_executeFaults {s : State} {i : Instr} {fc : BitVec 3} {fi : Nat} (h : s.executeFaults fc fi i) :
    exec i s.advance = .next { s with fault := ⟨true, fc, BitVec.ofNat 16 fi⟩ } := by
  rcases exec_cases i s with ⟨fc', fi', h', he⟩ | ⟨hn, -⟩
  · obtain ⟨rfl, rfl⟩ := State.executeFaults_unique h h'
    exact he
  · exact absurd h (hn fc fi)

/-- Every state is one after a fetch advance. -/
theorem State.advance_pc_sub (s : State) : State.advance { s with pc := s.pc - 2 } = s := by
  simp [State.advance]

/-- The same in any state: the fetch advance is undone and the row latched. -/
theorem exec_of_executeFaults {s : State} {i : Instr} {fc : BitVec 3} {fi : Nat} (h : s.executeFaults fc fi i) :
    exec i s = .next { s with pc := s.pc - 2, fault := ⟨true, fc, BitVec.ofNat 16 fi⟩ } := by
  have he := exec_advance_of_executeFaults (s := { s with pc := s.pc - 2 }) h
  rwa [State.advance_pc_sub] at he

/-! ### What it means that no condition is met -/

/-- The bytes of an access lie in memory. -/
theorem State.inMemory_of_no_dataFault {s : State} {n : Nat} (h : ∀ fc fi, ¬s.dataFault (n + 1) fc fi) :
    s.idx.toNat + (n + 1) ≤ 4096 := (State.inRange_of_no_dataFault h).resolve_left (Nat.succ_ne_zero n)

/-- A `CALL` has room on the stack. -/
theorem State.sp_lt_of_no_fault {s : State} {nnn : Addr12} (h : ∀ fc fi, ¬s.executeFaults fc fi (.call nnn)) :
    s.sp.val < 16 := by
  have hfull : s.sp.val ≠ 16 := fun h16 => h 3 16 ⟨h16, rfl, rfl⟩
  omega

/-- A `RET` has an entry on the stack. -/
theorem State.sp_pos_of_no_fault {s : State} (h : ∀ fc fi, ¬s.executeFaults fc fi .ret) : 0 < s.sp.val :=
  Nat.pos_of_ne_zero fun h0 => h 4 0 ⟨h0, rfl, rfl⟩

/-- A `SKP` has the number of a key; `SKNP` has the same row of the table. -/
theorem State.reg_le_of_no_fault {s : State} {x : RegIdx} (h : ∀ fc fi, ¬s.executeFaults fc fi (.skp x)) :
    (s.reg x).toNat ≤ 15 := Nat.not_lt.mp fun hgt => h 5 _ ⟨hgt, rfl, rfl⟩

end Sys2Proof.Machine

open Sys2Proof Sys2Proof.Machine

/-- Settles O9: the first row is the fetch that fails, every other row the execute step of the instruction fetched; with no
condition met the fetch succeeds and the execute step leaves the latch alone, as the end of the cycle does. -/
theorem faultsFollowTheTable : Obligations.FaultsFollowTheTable := by
  refine fun s hr => ⟨?_, fun hnone => ?_⟩
  · rintro fc fi (⟨hpc, rfl, rfl⟩ | ⟨i, hi, hf⟩)
    · rw [step_of_no_fetch hr hpc, BitVec.ofNat_toNat, BitVec.setWidth_eq]
    · rw [step_of_instrAt hr hi, exec_advance_of_executeFaults hf, endCycle_of_fault rfl]
  · have hpc : s.pc.toNat ≤ 0xFFE := Nat.not_lt.mp fun hgt => hnone 1 _ (Or.inl ⟨hgt, rfl, rfl⟩)
    have hi := State.instrAt_of_le hpc
    rcases exec_cases _ s with ⟨fc, fi, hf, -⟩ | ⟨-, u, he, hu⟩
    · exact absurd (Or.inr ⟨_, hi, hf⟩) (hnone fc fi)
    · exact ⟨_, step_of_exec hr hi he hu, hu⟩

/-- Settles O7. -/
theorem haltedStepChangesNothing : Obligations.HaltedStepChangesNothing :=
  fun _ => step_of_halted

/-- Settles O6: the number of the two bytes is the word the fetch reads, and the end of the cycle is the tick and the host's
move, or nothing after a fault. -/
theorem stepRunsDecodedInstruction : Obligations.StepRunsDecodedInstruction := by
  intro s t i hr hpc hdec he
  have hi : s.instrAt = some i := by rw [State.instrAt_of_le hpc, wordOfBytes_eq_ofNat, hdec]
  rw [step_of_instrAt hr hi]
  exact congrArg endCycle he
end

section
/-! What each instruction may write (the frame rule, spec/00_scope.md R8). -/

namespace Sys2Proof.Machine

/-! ### The meanings without a condition -/

/-- `SNE Vx, kk` skips on a difference (R75). -/
theorem exec_sneImm (x : RegIdx) (kk : Byte) (s : State) :
    exec (.sneImm x kk) s = .next { s with pc := if s.reg x ≠ kk then s.pc + 2 else s.pc } :=
  congrArg Host.Outcome.next (skipIf_of_iff bne_iff_ne s)

/-- `SNE Vx, Vy` skips on a difference (R77). -/
theorem exec_sneReg (x y : RegIdx) (s : State) :
    exec (.sneReg x y) s = .next { s with pc := if s.reg x ≠ s.reg y then s.pc + 2 else s.pc } :=
  congrArg Host.Outcome.next (skipIf_of_iff bne_iff_ne s)

/-- `JP V0` writes `PC` alone (R78). -/
theorem exec_jpV0 (nnn : Addr12) (s : State) : exec (.jpV0 nnn) s = .next { s with pc := addrPlusV0 s nnn } := rfl

/-- `ADD Vx, kk` writes the destination (R101). -/
theorem exec_addImm (x : RegIdx) (kk : Byte) (s : State) : exec (.addImm x kk) s = .next (s.setReg x (s.reg x + kk)) := rfl

/-- `ADD I, Vx` writes `I` alone (R160). -/
theorem exec_addI (x : RegIdx) (s : State) : exec (.addI x) s = .next { s with idx := s.idx + wideByte (s.reg x) } := rfl

/-- `LD F, Vx` writes `I` alone (R161). -/
theorem exec_ldF (x : RegIdx) (s : State) : exec (.ldF x) s = .next { s with idx := glyphOperand s x } := rfl

/-! ### The frame -/

/-- What instruction `i` may have changed from `s` to `t`: each piece of state is as it was unless the tables of the spec name
`i` as one that writes it. -/
structure WritesOnly (i : Instr) (s t : State) : Prop where
  regs : ∀ r : RegIdx, writesReg r i = false → ¬(r = 15 ∧ writesFlag i = true) → t.reg r = s.reg r
  idx : writesIndex i = false → t.idx = s.idx
  stack : writesStackPointer i = false → t.sp = s.sp ∧ t.stack = s.stack
  dt : (∀ x, i ≠ .ldDtVx x) → t.dt = s.dt
  st : (∀ x, i ≠ .ldStVx x) → t.st = s.st
  disp : writesDisplay i = false → t.disp = s.disp
  mem : writesMemory i = false → t.mem = s.mem
  ports : readsRandom i = false → t.ports = s.ports
  keys : t.ports.keys = s.ports.keys
  loadOpen : t.ports.loadOpen = s.ports.loadOpen
  fontBase : t.fontBase = s.fontBase

section
variable {i : Instr} {s : State} {x : RegIdx}

/-- Every instruction may leave all as it was. -/
theorem WritesOnly.refl (i : Instr) (s : State) : WritesOnly i s s :=
  ⟨fun _ _ _ => rfl, fun _ => rfl, fun _ => ⟨rfl, rfl⟩, fun _ => rfl, fun _ => rfl, fun _ => rfl, fun _ => rfl, fun _ => rfl,
    rfl, rfl, rfl⟩

/-- Every instruction may write `PC`, and the latch (R14, R183). -/
theorem WritesOnly.pc_fault (i : Instr) (s : State) (pc : Word) (fault : FaultLatch) :
    WritesOnly i s { s with pc := pc, fault := fault } := { WritesOnly.refl i s with }

/-- A register file that differs only where the instruction may write registers. -/
theorem WritesOnly.regFile {v : Vector Byte 16}
    (hv : ∀ r, writesReg r i = false → ¬(r = 15 ∧ writesFlag i = true) → State.reg { s with v := v } r = s.reg r) :
    WritesOnly i s { s with v := v } := { WritesOnly.refl i s with regs := hv }

/-- A register that is not written is not the one that is. -/
theorem ne_of_writesReg {r : RegIdx} (hr : writesReg r i = false) (hx : writesReg x i = true) : r ≠ x := by
  rintro rfl
  exact Bool.false_ne_true (hr.symm.trans hx)

/-- An instruction may write a register it names. -/
theorem WritesOnly.setReg (hx : writesReg x i = true) (b : Byte) : WritesOnly i s (s.setReg x b) :=
  WritesOnly.regFile fun r hr _ => (State.reg_setReg s x r b).trans (if_neg (ne_of_writesReg hr hx))

/-- One of the six instructions that write the flag may also write VF (R12). -/
theorem WritesOnly.setFlagThenReg (hf : writesFlag i = true) (hx : writesReg x i = true) (f b : Byte) :
    WritesOnly i s (s.setFlagThenReg f x b) := by
  refine WritesOnly.regFile fun r hr hrf => (State.reg_setFlagThenReg s f x r b).trans ?_
  have hvf : r ≠ vf := fun h => hrf ⟨h, hf⟩
  rw [if_neg (ne_of_writesReg hr hx), if_neg hvf]

/-- A block load may write the registers of its block (R165). -/
theorem WritesOnly.setRegBlock {bs : List Byte} (hl : bs.length = x.val + 1) :
    WritesOnly (.ldRegs x) s (s.setRegBlock bs) := by
  refine WritesOnly.regFile fun r hr _ => (State.reg_setRegBlock s bs r).trans ?_
  have hlt : x < r := not_le.mp (of_decide_eq_false hr)
  exact List.getD_eq_default _ _ (hl.trans_le hlt)

/-- A draw may write VF and the display (R126). -/
theorem WritesOnly.drawn (x y : RegIdx) (n : Nibble) : WritesOnly (.drw x y n) s (s.drawn x y n) where
  __ := WritesOnly.refl (.drw x y n) s
  regs _ _ hr := State.reg_drawn_of_ne s x y n fun h => hr ⟨h, rfl⟩
  disp := nofun

end

/-- No instruction writes more than the tables of the spec say. -/
theorem exec_writesOnly (i : Instr) (s : State) : ∃ t, exec i s = .next t ∧ WritesOnly i s t := by
  by_cases hf : ∃ fc fi, s.executeFaults fc fi i
  · obtain ⟨fc, fi, hf⟩ := hf
    exact ⟨_, exec_of_executeFaults hf, WritesOnly.pc_fault i s _ _⟩
  simp only [not_exists] at hf
  cases i
  case cls => exact ⟨_, exec_cls s, { WritesOnly.refl _ s with disp := nofun }⟩
  case ret =>
    have hsp := State.sp_pos_of_no_fault hf
    exact ⟨_, exec_ret_of_pos s hsp, { WritesOnly.refl _ s with stack := nofun }⟩
  case call nnn =>
    have hsp := State.sp_lt_of_no_fault hf
    exact ⟨_, exec_call_of_lt s nnn hsp, { WritesOnly.refl _ s with stack := nofun }⟩
  case ldI nnn => exact ⟨_, exec_ldI nnn s, { WritesOnly.refl _ s with idx := nofun }⟩
  case addI x => exact ⟨_, exec_addI x s, { WritesOnly.refl _ s with idx := nofun }⟩
  case ldF x => exact ⟨_, exec_ldF x s, { WritesOnly.refl _ s with idx := nofun }⟩
  case ldDtVx x => exact ⟨_, exec_ldDtVx x s, { WritesOnly.refl _ s with dt := fun h => absurd rfl (h x) }⟩
  case ldStVx x => exact ⟨_, exec_ldStVx x s, { WritesOnly.refl _ s with st := fun h => absurd rfl (h x) }⟩
  case ldB x =>
    have hin := State.inMemory_of_no_dataFault hf
    exact ⟨_, exec_ldB_of_inRange s x hin, { WritesOnly.refl _ s with mem := nofun }⟩
  case stRegs x =>
    have hin := State.inMemory_of_no_dataFault hf
    exact ⟨_, exec_stRegs_of_inRange s x hin, { WritesOnly.refl _ s with mem := nofun }⟩
  case ldRegs x =>
    have hin := State.inMemory_of_no_dataFault hf
    exact ⟨_, exec_ldRegs_of_inRange s x hin, WritesOnly.setRegBlock (State.length_bytes s _ _)⟩
  case drw x y n =>
    have hin := (spriteInMemory_iff s.idx n).mpr (State.inRange_of_no_dataFault hf)
    exact ⟨_, exec_drw_eq_drawn x y hin, WritesOnly.drawn x y n⟩
  case rnd x kk =>
    have hx : writesReg x (.rnd x kk) = true := beq_self_eq_true x
    have hdest : WritesOnly (.rnd x kk) s (s.setReg x (s.randInput &&& kk)) := WritesOnly.setReg hx _
    exact ⟨_, exec_rnd x kk s, { hdest with ports := nofun }⟩
  case ldVxK x =>
    by_cases hk : s.ports.keys = 0
    · exact ⟨_, exec_ldVxK_of_none s x hk, WritesOnly.pc_fault _ s _ _⟩
    · obtain ⟨b, he⟩ := exec_ldVxK_of_pressed s x hk
      exact ⟨_, he, WritesOnly.setReg (i := .ldVxK x) (beq_self_eq_true x) b⟩
  case skp x =>
    have hx := State.reg_le_of_no_fault hf
    exact ⟨_, exec_skp_of_le s x hx, skipIf_eq _ s ▸ WritesOnly.pc_fault _ s _ _⟩
  case sknp x =>
    have hx := State.reg_le_of_no_fault hf
    exact ⟨_, exec_sknp_of_le s x hx, skipIf_eq _ s ▸ WritesOnly.pc_fault _ s _ _⟩
  case seImm x kk => exact ⟨_, exec_seImm x kk s, WritesOnly.pc_fault _ s _ _⟩
  case sneImm x kk => exact ⟨_, exec_sneImm x kk s, WritesOnly.pc_fault _ s _ _⟩
  case seReg x y => exact ⟨_, exec_seReg x y s, WritesOnly.pc_fault _ s _ _⟩
  case sneReg x y => exact ⟨_, exec_sneReg x y s, WritesOnly.pc_fault _ s _ _⟩
  case jp nnn => exact ⟨_, exec_jp nnn s, WritesOnly.pc_fault _ s _ _⟩
  case jpV0 nnn => exact ⟨_, exec_jpV0 nnn s, WritesOnly.pc_fault _ s _ _⟩
  case nop => exact ⟨_, exec_nop s, WritesOnly.refl _ s⟩
  case addReg | subReg | subnReg | shr | shl => exact ⟨_, rfl, WritesOnly.setFlagThenReg rfl (beq_self_eq_true _) _ _⟩
  -- the meanings left write the register they name
  all_goals exact ⟨_, rfl, WritesOnly.setReg (beq_self_eq_true _) _⟩

/-- The same about the state an instruction answers. -/
theorem writesOnly_of_exec {i : Instr} {s t : State} (h : exec i s = .next t) : WritesOnly i s t := by
  obtain ⟨u, he, hw⟩ := exec_writesOnly i s
  cases he.symm.trans h
  exact hw

end Sys2Proof.Machine

open Sys2Proof Sys2Proof.Machine

/-- Settles O15: the frame, piece by piece. -/
theorem onlyNamedInstructionsWrite : Obligations.OnlyNamedInstructionsWrite := by
  intro i s t h
  have hw := writesOnly_of_exec h
  exact ⟨hw.regs, hw.idx, hw.stack, hw.dt, hw.st, hw.disp, hw.mem, hw.ports, hw.keys, hw.loadOpen, hw.fontBase⟩
end

section
/-! What no instruction reads (spec/10_state.md R16, R23; spec/60_exceptions.md R187): a step does the same to all other state
whatever `ST` and the input ports hold, as long as the key lines and the random byte that the instruction reads are the same. -/

namespace Sys2Proof.Machine

/-- `s` with another value of `ST` and another host's side of the input ports. -/
def State.withStPorts (s : State) (a : Byte) (p : Ports) : State := { s with st := a, ports := p }

/-- A skip reads and writes neither. -/
theorem skipIf_withStPorts (c : Bool) (s : State) (a : Byte) (p : Ports) :
    skipIf c (s.withStPorts a p) = (skipIf c s).withStPorts a p := by
  cases c <;> rfl

/-- What an instruction leaves in the input ports: `RND` consumes one byte (R121). -/
def portsAfter (i : Instr) (p : Ports) : Ports :=
  if readsRandom i then { p with randPlan := p.randPlan.tail, randTurn := p.randTurn + 1 } else p

/-- What an instruction leaves in `ST` where it held `a`: only `LD ST, Vx` writes it (R16). -/
def stAfter (i : Instr) (s : State) (a : Byte) : Byte :=
  match i with
  | .ldStVx x => s.reg x
  | _ => a

/-- An instruction that can raise a fault writes neither `ST` nor the input ports. -/
theorem stAfter_portsAfter_of_executeFaults {i : Instr} {s : State} {fc : BitVec 3} {fi : Nat} (h : s.executeFaults fc fi i)
    (a : Byte) (p : Ports) : stAfter i s a = a ∧ portsAfter i p = p := by
  cases i
  case drw | ldB | stRegs | ldRegs | call | ret | skp | sknp => exact ⟨rfl, rfl⟩
  all_goals exact h.elim

/-- The execute step leaves one state, but for `ST` and the ports, from all states that differ in these alone and in nothing
the instruction reads of them. -/
theorem exec_withStPorts (i : Instr) (s : State) : ∃ t : State, ∀ (a : Byte) (p : Ports),
    (readsKeys i = true → p.keys = s.ports.keys) →
    (readsRandom i = true → (s.withStPorts a p).randInput = s.randInput) →
    exec i (s.withStPorts a p) = .next (t.withStPorts (stAfter i s a) (portsAfter i p)) := by
  by_cases hf : ∃ fc fi, s.executeFaults fc fi i
  · obtain ⟨fc, fi, hf⟩ := hf
    refine ⟨{ s with pc := s.pc - 2, fault := ⟨true, fc, BitVec.ofNat 16 fi⟩ }, fun a p _ _ => ?_⟩
    obtain ⟨hst, hp⟩ := stAfter_portsAfter_of_executeFaults hf a p
    rw [hst, hp]
    exact exec_of_executeFaults (s := s.withStPorts a p) hf
  simp only [not_exists] at hf
  obtain ⟨t, ht⟩ := everyInstructionAnswers i s
  refine ⟨t, fun a p hkeys hrand => ?_⟩
  cases i
  case ret =>
    have hsp := State.sp_pos_of_no_fault hf
    cases ht.symm.trans (exec_ret_of_pos s hsp)
    exact exec_ret_of_pos (s.withStPorts a p) hsp
  case call nnn =>
    have hsp := State.sp_lt_of_no_fault hf
    cases ht.symm.trans (exec_call_of_lt s nnn hsp)
    exact exec_call_of_lt (s.withStPorts a p) nnn hsp
  case ldB x =>
    have hin := State.inMemory_of_no_dataFault hf
    cases ht.symm.trans (exec_ldB_of_inRange s x hin)
    exact exec_ldB_of_inRange (s.withStPorts a p) x hin
  case stRegs x =>
    have hin := State.inMemory_of_no_dataFault hf
    cases ht.symm.trans (exec_stRegs_of_inRange s x hin)
    exact exec_stRegs_of_inRange (s.withStPorts a p) x hin
  case ldRegs x =>
    have hin := State.inMemory_of_no_dataFault hf
    cases ht.symm.trans (exec_ldRegs_of_inRange s x hin)
    exact exec_ldRegs_of_inRange (s.withStPorts a p) x hin
  case drw x y n =>
    have hin := (spriteInMemory_iff s.idx n).mpr (State.inRange_of_no_dataFault hf)
    cases ht.symm.trans (exec_drw_eq_drawn x y hin)
    exact exec_drw_eq_drawn (s := s.withStPorts a p) x y hin
  case skp x =>
    have hx := State.reg_le_of_no_fault hf
    have hkey : (s.withStPorts a p).key = s.key := congrArg BitVec.getLsbD (hkeys rfl)
    cases ht.symm.trans (exec_skp_of_le s x hx)
    rw [exec_skp_of_le (s.withStPorts a p) x hx, hkey, skipIf_withStPorts]
    rfl
  case sknp x =>
    have hx := State.reg_le_of_no_fault hf
    have hkey : (s.withStPorts a p).key = s.key := congrArg BitVec.getLsbD (hkeys rfl)
    cases ht.symm.trans (exec_sknp_of_le s x hx)
    rw [exec_sknp_of_le (s.withStPorts a p) x hx, hkey, skipIf_withStPorts]
    rfl
  case ldVxK x =>
    have hk : (s.withStPorts a p).ports.keys = s.ports.keys := hkeys rfl
    simp only [exec, execLdVxK, hk] at ht ⊢
    split at ht
    · cases ht; rfl
    · cases ht; rfl
  case rnd x kk =>
    cases ht.symm.trans (exec_rnd x kk s)
    rw [exec_rnd, hrand rfl]
    rfl
  case seImm | sneImm | seReg | sneReg =>
    cases ht
    exact congrArg Host.Outcome.next (skipIf_withStPorts _ s a p)
  -- the meanings left have no condition
  all_goals
    cases ht
    rfl

/-- The end of a cycle makes of `ST` and of the ports something that depends on no more than each of them. -/
theorem endCycle_withStPorts (u : State) : ∃ (t : State) (f : Byte → Byte) (g : Ports → Ports), ∀ a p,
    endCycle (.next (u.withStPorts a p)) = .next (t.withStPorts (f a) (g p)) := by
  cases hfv : u.fault.fv with
  | true =>
    refine ⟨u, id, fun p => { p with loadOpen := false }, fun a p => ?_⟩
    exact endCycle_of_fault (t := u.withStPorts a p) hfv
  | false =>
    refine ⟨u.tick, tickTimer, fun p => (u.withStPorts 0 p).hostTurn.closeLoad.ports, fun a p => ?_⟩
    exact endCycle_of_running (t := u.withStPorts a p) hfv

/-- One step leaves one state, but for `ST` and the ports, from all states that differ in these alone and have the same key
lines and the same random byte; what it leaves in `ST` depends on no port, and in the ports not on `ST`. -/
theorem step_withStPorts (s : State) : ∃ (t : State) (f : Byte → Byte) (g : Ports → Ports), ∀ a p,
    p.keys = s.ports.keys → (s.withStPorts a p).randInput = s.randInput →
    step (s.withStPorts a p) = .next (t.withStPorts (f a) (g p)) := by
  cases hfv : s.fault.fv with
  | true => exact ⟨s, id, id, fun a p _ _ => step_of_halted (s := s.withStPorts a p) hfv⟩
  | false =>
    by_cases hpc : s.pc.toNat ≤ 0xFFE
    · obtain ⟨i, hi⟩ : ∃ i, s.instrAt = some i := ⟨_, State.instrAt_of_le hpc⟩
      obtain ⟨u, hu⟩ := exec_withStPorts i s.advance
      obtain ⟨t, f, g, ht⟩ := endCycle_withStPorts u
      refine ⟨t, fun a => f (stAfter i s a), fun p => g (portsAfter i p), fun a p hkeys hrand => ?_⟩
      rw [step_of_instrAt (s := s.withStPorts a p) hfv hi]
      exact (congrArg endCycle (hu a p (fun _ => hkeys) fun _ => hrand)).trans (ht _ _)
    · refine ⟨{ s with fault := ⟨true, 1, s.pc⟩ }, id, fun p => { p with loadOpen := false }, fun a p _ _ => ?_⟩
      exact step_of_no_fetch (s := s.withStPorts a p) hfv (Nat.lt_of_not_le hpc)

/-- The ports `RND` leaves do not tell the key lines apart from what they were. -/
theorem portsAfter_keys (i : Instr) (p : Ports) (k : BitVec 16) :
    portsAfter i { p with keys := k } = { portsAfter i p with keys := k } := by
  unfold portsAfter
  split <;> rfl

/-- Every other instruction leaves the ports alone. -/
theorem portsAfter_of_not_readsRandom {i : Instr} (h : readsRandom i = false) (p : Ports) : portsAfter i p = p := by
  simp [portsAfter, h]

/-- States equal in every item of R10 differ in the ports alone. -/
theorem State.eq_withStPorts_of_core {s u : State} (h : s.core = u.core) : u = s.withStPorts s.st u.ports := by
  cases s
  cases u
  cases h
  rfl

end Sys2Proof.Machine

open Sys2Proof Sys2Proof.Machine

/-- Settles O16: the state and the state with another `ST` have the same ports. -/
theorem soundTimerIsNeverRead : Obligations.SoundTimerIsNeverRead := by
  intro s a
  obtain ⟨t, f, g, h⟩ := step_withStPorts s
  exact ⟨_, f a, h s.st s.ports rfl rfl, h a s.ports rfl rfl⟩

/-- Settles O18: the two states differ in the ports alone, so the steps answer states that do. -/
theorem equalStatesBehaveIdentically : Obligations.EqualStatesBehaveIdentically := by
  intro s u hcore hkeys hrand
  rw [State.eq_withStPorts_of_core hcore] at hrand ⊢
  obtain ⟨t, f, g, h⟩ := step_withStPorts s
  exact ⟨_, _, h s.st s.ports rfl rfl, h s.st u.ports hkeys.symm hrand.symm, rfl⟩

/-- Settles O17: an instruction that does not read the key lines does the same for every level of them, and one that does not
read the random port the same for every content of it. -/
theorem inputsReachOnlyTheirInstructions : Obligations.InputsReachOnlyTheirInstructions := by
  intro i s
  obtain ⟨t, h⟩ := exec_withStPorts i s
  have hs := h s.st s.ports (fun _ => rfl) fun _ => rfl
  refine ⟨fun hk k => ⟨_, hs, ?_⟩, fun hr p n => ⟨_, hs, ?_⟩⟩
  · have hkeys := h s.st { s.ports with keys := k } (fun hk' => absurd (hk.symm.trans hk') (by decide)) fun _ => rfl
    rw [portsAfter_keys] at hkeys
    exact hkeys
  · have hrand := h s.st { s.ports with randPlan := p, randTurn := n } (fun _ => rfl)
      fun hr' => absurd (hr.symm.trans hr') (by decide)
    rw [portsAfter_of_not_readsRandom hr] at hrand ⊢
    exact hrand
end

section
/-! The invariant of every run (spec/10_state.md R22, R19; spec/20_memory.md R42): the execute step keeps each of its parts, and
so do the end of a cycle and the program load; and the tick of the timers (spec/47_timers.md R154). -/

namespace Sys2Proof.Machine

/-! ### Memory -/

/-- The execute step keeps the canonical form of memory: a store that is not refused lies inside memory (R35). -/
theorem memWf_of_exec {i : Instr} {s t : State} (hm : s.memWf = true) (he : exec i s = .next t) : t.memWf = true := by
  by_cases hf : ∃ fc fi, s.executeFaults fc fi i
  · obtain ⟨fc, fi, hf⟩ := hf
    cases (exec_of_executeFaults hf).symm.trans he
    exact hm
  simp only [not_exists] at hf
  cases i
  case ldB x =>
    have hin := State.inMemory_of_no_dataFault hf
    cases (exec_ldB_of_inRange s x hin).symm.trans he
    exact State.memWf_writeBytes hm hin
  case stRegs x =>
    have hin := State.inMemory_of_no_dataFault hf
    cases (exec_stRegs_of_inRange s x hin).symm.trans he
    exact State.memWf_writeBytes hm (by rwa [State.length_regBlock])
  all_goals
    have hw := writesOnly_of_exec he
    rw [State.memWf, hw.mem rfl, hw.fontBase]
    exact hm

/-! ### The stack -/

/-- Every live entry of the stack is an address after a fetch (R22). -/
def State.StackOk (s : State) : Prop := ∀ j : Fin 16, j.val < s.sp.val → (s.stack.get j).toNat ≤ 0x1000

/-- The execute step keeps the live entries so: only `CALL` writes one, and it writes the advanced `PC` (R72). -/
theorem stackOk_of_exec {i : Instr} {s t : State} (hs : s.StackOk) (hpc : s.pc.toNat ≤ 0x1000) (he : exec i s = .next t) :
    t.StackOk := by
  by_cases hf : ∃ fc fi, s.executeFaults fc fi i
  · obtain ⟨fc, fi, hf⟩ := hf
    cases (exec_of_executeFaults hf).symm.trans he
    exact hs
  simp only [not_exists] at hf
  cases i
  case call nnn =>
    have hsp := State.sp_lt_of_no_fault hf
    cases (exec_call_of_lt s nnn hsp).symm.trans he
    intro j hj
    simp only [Vector.get_eq_getElem, Vector.getElem_set]
    split
    · exact hpc
    · exact hs j (by simp only at hj; omega)
  case ret =>
    have hsp := State.sp_pos_of_no_fault hf
    cases (exec_ret_of_pos s hsp).symm.trans he
    exact fun j hj => hs j (by simp only at hj; omega)
  all_goals
    obtain ⟨hsp, hstack⟩ := (writesOnly_of_exec he).stack rfl
    rw [State.StackOk, hsp, hstack]
    exact hs

/-! ### `PC` -/

/-- A skip goes at most two instructions on. -/
theorem pcAfterSkip_le (pc0 : Nat) (c : Prop) [Decidable c] : pcAfterSkip pc0 c ≤ pc0 + 4 := by
  unfold pcAfterSkip
  split <;> omega

/-- Where a cycle that began at a fetch address leaves `PC` (R22): the farthest is `JP V0` with 0xFFF and 0xFF. -/
theorem State.pcAfter_le {s : State} {i : Instr} (hs : s.StackOk) (hpc : s.pc.toNat ≤ 0xFFE)
    (hf : ∀ fc fi, ¬s.executeFaults fc fi i) : s.pcAfter i ≤ 0x10FE := by
  cases i
  case jp nnn | call nnn =>
    have := nnn.isLt
    simp only [State.pcAfter]
    omega
  case jpV0 nnn =>
    have := nnn.isLt
    have := (s.reg 0).isLt
    simp only [State.pcAfter]
    omega
  case ret =>
    have hsp := State.sp_pos_of_no_fault hf
    have htop := hs ⟨s.sp.val - 1, by omega⟩ (by simp only; omega)
    have hlt : s.sp.val - 1 < 16 := by omega
    simp only [Vector.get_eq_getElem] at htop
    simp only [State.pcAfter, List.getD_eq_getElem?_getD, Vector.getElem?_toList, Vector.getElem?_eq_getElem hlt,
      Option.getD_some]
    omega
  case seImm | sneImm | seReg | sneReg | skp | sknp => exact (pcAfterSkip_le _ _).trans (by omega)
  case ldVxK =>
    simp only [State.pcAfter]
    split <;> omega
  all_goals
    simp only [State.pcAfter]
    omega

/-! ### The latch -/

/-- The row of a data access, latched (R181). -/
theorem State.latchOk_of_dataFault {s : State} {n : Nat} {fc : BitVec 3} {fi : Nat} (h : s.dataFault n fc fi) :
    State.LatchOk { s with fault := ⟨true, fc, BitVec.ofNat 16 fi⟩ } := by
  obtain ⟨-, rfl, rfl⟩ := h
  have hlt := s.idx.isLt
  exact Or.inr (Or.inr (Or.inl ⟨rfl, rfl, (BitVec.toNat_ofNat _ _).trans (Nat.mod_eq_of_lt (by omega))⟩))

/-- Every row of the table that the execute step can latch holds the code and the information word of its cause (R181). -/
theorem State.latchOk_of_executeFaults {s : State} {i : Instr} {fc : BitVec 3} {fi : Nat} (h : s.executeFaults fc fi i) :
    State.LatchOk { s with fault := ⟨true, fc, BitVec.ofNat 16 fi⟩ } := by
  cases i
  case drw | ldB | stRegs | ldRegs => exact State.latchOk_of_dataFault h
  case call =>
    obtain ⟨hsp, rfl, rfl⟩ := h
    exact Or.inr (Or.inr (Or.inr (Or.inl ⟨rfl, rfl, rfl, hsp⟩)))
  case ret =>
    obtain ⟨hsp, rfl, rfl⟩ := h
    exact Or.inr (Or.inr (Or.inr (Or.inr (Or.inl ⟨rfl, rfl, rfl, hsp⟩))))
  case skp x | sknp x =>
    obtain ⟨hx, rfl, rfl⟩ := h
    have hlt := (s.reg x).isLt
    exact Or.inr (Or.inr (Or.inr (Or.inr (Or.inr
      ⟨rfl, rfl, x, (BitVec.toNat_ofNat _ _).trans (Nat.mod_eq_of_lt (by omega)), hx⟩))))
  all_goals exact h.elim

/-- While the core runs the latch is clear, whatever else changes. -/
theorem State.LatchOk.of_fault_eq {s t : State} (h : s.LatchOk) (hr : s.Running) (ht : t.fault = s.fault) : t.LatchOk := by
  unfold State.Running at hr
  simpa [State.LatchOk, ht, hr] using h

/-! ### The invariant -/

/-- Closing the load port keeps the invariant. -/
theorem State.Inv.closeLoad {s : State} (h : s.Inv) : s.closeLoad.Inv := by
  obtain ⟨hm, hpc, hs, hl, -⟩ := h
  exact ⟨hm, hpc, hs, hl, fun _ => rfl⟩

/-- A multi-byte write inside memory keeps the invariant. -/
theorem State.Inv.writeBytes {s : State} {a : Nat} {bs : List Byte} (h : s.Inv) (ha : a + bs.length ≤ 4096) :
    (s.writeBytes a bs).Inv := by
  obtain ⟨hm, hrest⟩ := h
  exact ⟨State.memWf_writeBytes hm ha, hrest⟩

/-- A cycle that latches a row of the fault table keeps the invariant (R183). -/
theorem State.Inv.latch {s : State} {fault : FaultLatch} (h : s.Inv) (hl : State.LatchOk { s with fault := fault }) :
    State.Inv (State.closeLoad { s with fault := fault }) := by
  obtain ⟨hm, hpc, hs, -, -⟩ := h
  exact ⟨hm, hpc, hs, hl, fun _ => rfl⟩

/-- A cycle that does not fault keeps the invariant. -/
theorem State.Inv.execute {s u : State} {i : Instr} (h : s.Inv) (hr : s.Running) (hpc : s.pc.toNat ≤ 0xFFE)
    (hf : ∀ fc fi, ¬s.executeFaults fc fi i) (he : exec i s.advance = .next u) (hu : u.fault = s.fault) :
    u.tick.hostTurn.closeLoad.Inv := by
  obtain ⟨hm, -, hs, hl, -⟩ := h
  obtain ⟨u', he', hpcu⟩ := exec_pcAfter hpc i hf
  cases he'.symm.trans he
  have hadv : s.advance.pc.toNat ≤ 0x1000 := by
    rw [State.toNat_pc_advance hpc]
    omega
  have hpcu' : u.pc.toNat ≤ 0x10FE := hpcu ▸ State.pcAfter_le hs hpc hf
  have hmem : u.memWf = true := memWf_of_exec (s := s.advance) hm he
  have hstack : u.StackOk := stackOk_of_exec (s := s.advance) hs hadv he
  exact ⟨hmem, hpcu', hstack, hl.of_fault_eq hr hu, fun _ => rfl⟩

end Sys2Proof.Machine

open Sys2Proof Sys2Proof.Machine

/-- Settles O10: a halted core stays as it is; any other latches a fault, at the fetch or in the execute step, or executes an
instruction that keeps every part of the invariant. -/
theorem stepKeepsInvariant : Obligations.StepKeepsInvariant := by
  intro s t hinv hstep
  cases hfv : s.fault.fv with
  | true =>
    cases (step_of_halted hfv).symm.trans hstep
    exact hinv
  | false =>
    by_cases hpc : s.pc.toNat ≤ 0xFFE
    · rcases step_cases hfv (State.instrAt_of_le hpc) hstep with ⟨fc, fi, hf, rfl⟩ | ⟨hf, u, he, hu, rfl⟩
      · exact hinv.latch (State.latchOk_of_executeFaults hf)
      · exact hinv.execute hfv hpc hf he hu
    · have hgt := Nat.lt_of_not_le hpc
      cases (step_of_no_fetch hfv hgt).symm.trans hstep
      exact hinv.latch (Or.inr (Or.inl ⟨rfl, rfl, rfl, hgt⟩))

/-- Settles O12: the reset state meets the invariant, and a load writes inside memory or nothing, and closes the port. -/
theorem launchMeetsInvariant : Obligations.LaunchMeetsInvariant := by
  intro base img
  have hinv := State.inv_resetAt base
  rcases State.load_cases (State.resetAt base) img with ⟨hclosed, -⟩ | ⟨-, hl, hload⟩ | ⟨-, -, hload⟩
  · cases hclosed
  · exact ⟨_, congrArg LoadOutcome.state hload, (hinv.writeBytes (by omega)).closeLoad⟩
  · exact ⟨_, congrArg LoadOutcome.state hload, hinv.closeLoad⟩

/-- Settles O14: a fault gives back both timers; otherwise the execute step leaves a timer as it was unless it is the load of
that timer, and the tick follows. -/
theorem timersTickOncePerCycle : Obligations.TimersTickOncePerCycle := by
  intro s t i hr hi hstep
  rcases step_cases hr hi hstep with ⟨fc, fi, -, rfl⟩ | ⟨-, u, he, hu, rfl⟩
  · exact ⟨nofun, fun _ => ⟨rfl, rfl⟩⟩
  · have hw := writesOnly_of_exec he
    refine ⟨fun _ => ⟨(toNat_tickTimer u.dt).trans (congrArg (fun b : Byte => b.toNat - 1) ?_),
      (toNat_tickTimer u.st).trans (congrArg (fun b : Byte => b.toNat - 1) ?_)⟩, fun hfault => ?_⟩
    · split
      next x =>
        cases (exec_ldDtVx x s.advance).symm.trans he
        rfl
      next hne => exact hw.dt hne
    · split
      next x =>
        cases (exec_ldStVx x s.advance).symm.trans he
        rfl
      next hne => exact hw.st hne
    · have hfv : u.fault.fv = false := hu ▸ hr
      exact absurd (hfv.symm.trans hfault) (by decide)
end

section
/-! The remaining control flow (spec/40_control_flow.md), the keypad (spec/46_keypad.md) and the two sums that wrap
(spec/42_arithmetic.md R101, spec/48_index_memory.md R160). -/

namespace Sys2Proof

/-! ### The decoder -/

/-- Group 2 is `CALL` (R54). -/
theorem decode_op2 {w : Word} (h : fieldOp w = 0x2) : decode w = .call (fieldNNN w) := by simp [decode, h]

/-- Group 4 is `SNE Vx, kk`. -/
theorem decode_op4 {w : Word} (h : fieldOp w = 0x4) : decode w = .sneImm (fieldX w) (fieldKK w) := by simp [decode, h]

/-- Group 7 is `ADD Vx, kk`. -/
theorem decode_op7 {w : Word} (h : fieldOp w = 0x7) : decode w = .addImm (fieldX w) (fieldKK w) := by simp [decode, h]

/-- Group 9 is `SNE Vx, Vy`. -/
theorem decode_op9 {w : Word} (h : fieldOp w = 0x9) : decode w = .sneReg (fieldX w) (fieldY w) := by simp [decode, h]

/-- Group B is `JP V0`. -/
theorem decode_opB {w : Word} (h : fieldOp w = 0xB) : decode w = .jpV0 (fieldNNN w) := by simp [decode, h]

/-- Nibble E of sub-table T0 is `RET` (R55). -/
theorem decodeT0_nE {w : Word} (h : fieldN w = 0xE) : decodeT0 w = .ret := by simp [decodeT0, h]

/-- Nibble E of sub-table TE is `SKP Vx` (R57). -/
theorem decodeTE_nE {w : Word} (h : fieldN w = 0xE) : decodeTE w = .skp (fieldX w) := by simp [decodeTE, h]

/-- Nibble 1 of sub-table TE is `SKNP Vx`. -/
theorem decodeTE_n1 {w : Word} (h : fieldN w = 0x1) : decodeTE w = .sknp (fieldX w) := by simp [decodeTE, h]

/-- Low byte 0x0A of sub-table TF is `LD Vx, K` (R58). -/
theorem decodeTF_kk0A {w : Word} (h : fieldKK w = 0x0A) : decodeTF w = .ldVxK (fieldX w) := by simp [decodeTF, h]

/-- Low byte 0x1E of sub-table TF is `ADD I, Vx`. -/
theorem decodeTF_kk1E {w : Word} (h : fieldKK w = 0x1E) : decodeTF w = .addI (fieldX w) := by simp [decodeTF, h]

end Sys2Proof

namespace Sys2Proof.Machine

/-! ### The stack -/

/-- `CALL` writes the entry at `SP` and no other (R72). -/
theorem get_stack_set (s : State) (value : Word) (h : s.sp.val < 16) (j : Fin 16) :
    (s.stack.set s.sp.val value h).get j = if j.val = s.sp.val then value else s.stack.get j := by
  simp only [Vector.get_eq_getElem, Vector.getElem_set, eq_comm]

/-- `RET` with `j + 1` entries on the stack pops entry `j` into `PC` (R73). -/
theorem exec_ret_of_succ (s : State) (j : Fin 16) (h : s.sp.val = j.val + 1) :
    exec .ret s = .next { s with sp := ⟨j.val, by omega⟩, pc := s.stack.get j } := by
  have hpos : 0 < s.sp.val := by omega
  have htop : s.sp.val - 1 = j.val := by omega
  simp only [exec_ret_of_pos s hpos, htop, Vector.get_eq_getElem]

/-- A cycle at a `CALL` with room on the stack. -/
theorem step_of_call {s : State} {nnn : Addr12} (hr : s.Running) (hi : s.instrAt = some (.call nnn)) (h : s.sp.val < 16) :
    ∃ t, step s = .next t ∧ t.pc = addrWord nnn ∧ t.sp.val = s.sp.val + 1 ∧ t.stack.get ⟨s.sp.val, h⟩ = s.pc + 2 ∧
      t.fault = s.fault :=
  ⟨_, step_of_exec hr hi (exec_call_of_lt s.advance nnn h) rfl, rfl, rfl, (get_stack_set s _ h _).trans (if_pos rfl), rfl⟩

/-- A cycle at a `RET` with `j + 1` entries on the stack. -/
theorem step_of_ret {s : State} {j : Fin 16} (hr : s.Running) (hi : s.instrAt = some .ret) (h : s.sp.val = j.val + 1) :
    ∃ t, step s = .next t ∧ t.pc = s.stack.get j ∧ t.sp.val = j.val ∧ t.fault = s.fault :=
  ⟨_, step_of_exec hr hi (exec_ret_of_succ s.advance j h) rfl, rfl, rfl, rfl⟩

/-! ### The keys -/

/-- `SKP` with the number of a key skips on its line being 1 (R141). -/
theorem exec_skp (x : RegIdx) (s : State) (h : (s.reg x).toNat ≤ 15) :
    exec (.skp x) s =
      .next { s with pc := if s.ports.keys.getLsbD (s.reg x).toNat = true then s.pc + 2 else s.pc } :=
  (exec_skp_of_le s x h).trans (congrArg Host.Outcome.next (skipIf_of_iff Iff.rfl s))

/-- `SKNP` with the number of a key skips on its line being 0 (R142). -/
theorem exec_sknp (x : RegIdx) (s : State) (h : (s.reg x).toNat ≤ 15) :
    exec (.sknp x) s =
      .next { s with pc := if s.ports.keys.getLsbD (s.reg x).toNat = false then s.pc + 2 else s.pc } := by
  have hkey : (!s.key (s.reg x).toNat) = true ↔ s.ports.keys.getLsbD (s.reg x).toNat = false := by
    rw [Bool.not_eq_true', State.key]
  exact (exec_sknp_of_le s x h).trans (congrArg Host.Outcome.next (skipIf_of_iff hkey s))

/-- Key lines that are all 0. -/
theorem keys_eq_zero {keys : BitVec 16} (h : ∀ k : Fin 16, keys.getLsbD k.val = false) : keys = 0 := by
  apply BitVec.eq_of_getLsbD_eq
  intro i hi
  rw [h ⟨i, hi⟩]
  exact BitVec.getLsbD_zero.symm

/-! ### Numbers -/

/-- A widened byte is the same number. -/
@[simp] theorem toNat_wideByte (b : Byte) : (wideByte b).toNat = b.toNat := by
  have := b.isLt
  rw [wideByte, BitVec.toNat_setWidth]
  omega

end Sys2Proof.Machine

open Sys2Proof Sys2Proof.Machine

/-- Settles O19: the `CALL` leaves `pc0 + 2` in the entry that the `RET` pops. -/
theorem callThenReturnComesBack : Obligations.CallThenReturnComesBack := by
  intro s nnn hr hi hsp
  obtain ⟨t, ht, hpc, htsp, htop, htf⟩ := step_of_call hr hi hsp
  refine ⟨t, ht, hpc ▸ toNat_addrWord nnn, fun hret => ?_⟩
  have htr : t.Running := (congrArg FaultLatch.fv htf).trans hr
  obtain ⟨u, hu, hupc, husp, huf⟩ := step_of_ret (j := ⟨s.sp.val, hsp⟩) htr hret htsp
  exact ⟨u, hu, hupc.trans htop, Fin.ext husp, huf.trans htf⟩

/-- Settles O28: the group selects the jump, whose sum needs no more than 16 bits. -/
theorem jumpV0AddsV0 : Obligations.JumpV0AddsV0 :=
  ⟨fun _ hw => decode_opB (fieldOp_of_mask hw), fun nnn s => ⟨_, exec_jpV0 nnn s, rfl, toNat_addrPlusV0 s nnn⟩⟩

/-- Settles O29: the group selects the instruction; with room it pushes and jumps, on a full stack it raises the fault of the
table. -/
theorem callPushesAndJumps : Obligations.CallPushesAndJumps := by
  refine ⟨fun w hw => decode_op2 (fieldOp_of_mask hw), fun nnn s hsp => ?_, fun nnn s hsp => ?_⟩
  · exact ⟨_, exec_call_of_lt s nnn hsp, rfl, rfl, get_stack_set s s.pc hsp⟩
  · exact exec_of_executeFaults (i := .call nnn) ⟨hsp, rfl, rfl⟩

/-- Settles O30: group 0 with nibble E is the instruction; it pops, or on an empty stack raises the fault of the table. -/
theorem returnPopsIntoPc : Obligations.ReturnPopsIntoPc := by
  refine ⟨fun w hw => ?_, exec_ret_of_succ, fun s hsp => exec_of_executeFaults (i := .ret) ⟨hsp, rfl, rfl⟩⟩
  obtain ⟨hop, hn⟩ := fields_of_mask_sel4 hw
  exact (decode_op0 hop).trans (decodeT0_nE hn)

/-- Settles O32: the group selects the instruction, and the skip writes `PC` as the difference says. -/
theorem skipIfDifferent : Obligations.SkipIfDifferent :=
  ⟨fun _ hw => decode_op4 (fieldOp_of_mask hw), fun _ hw => decode_op9 (fieldOp_of_mask hw), exec_sneImm, exec_sneReg⟩

/-- Settles O34: the group selects the instruction, which writes the sum of bytes to one register. -/
theorem addImmediateWraps : Obligations.AddImmediateWraps := by
  refine ⟨fun w hw => decode_op7 (fieldOp_of_mask hw), fun x kk s => ?_⟩
  obtain ⟨t, he, hframe, hreg⟩ := setReg_of_exec (exec_addImm x kk s)
  refine ⟨t, he, hframe, ?_, fun r hr => ?_⟩
  · rw [hreg, if_pos rfl, BitVec.toNat_add]
  · rw [hreg, if_neg hr]

/-- Settles O44: group E with nibble E is the instruction; above key 15 it raises the fault of the table. -/
theorem skipIfKeyPressed : Obligations.SkipIfKeyPressed := by
  refine ⟨fun w hw => ?_, exec_skp, fun x s hx => ?_⟩
  · obtain ⟨hop, hn⟩ := fields_of_mask_sel4 hw
    exact (decode_opE hop).trans (decodeTE_nE hn)
  · rw [← BitVec.ofNat_toNat]
    exact exec_of_executeFaults (i := .skp x) ⟨hx, rfl, rfl⟩

/-- Settles O45: group E with nibble 1 is the instruction; above key 15 it raises the fault of the table. -/
theorem skipIfKeyNotPressed : Obligations.SkipIfKeyNotPressed := by
  refine ⟨fun w hw => ?_, exec_sknp, fun x s hx => ?_⟩
  · obtain ⟨hop, hn⟩ := fields_of_mask_sel4 hw
    exact (decode_opE hop).trans (decodeTE_n1 hn)
  · rw [← BitVec.ofNat_toNat]
    exact exec_of_executeFaults (i := .sknp x) ⟨hx, rfl, rfl⟩

/-- Settles O46: the low byte selects the instruction; the scan finds the lowest key, or none where every line is 0. -/
theorem keyWaitTakesTheLowestKey : Obligations.KeyWaitTakesTheLowestKey := by
  refine ⟨decodesAs_of_decodeTF rfl decodeTF_kk0A, fun x k s hk hlow => ?_,
    fun x s hnone => exec_ldVxK_of_none s x (keys_eq_zero hnone)⟩
  obtain ⟨t, he, hframe, hreg⟩ := setReg_of_exec (exec_ldVxK_of_least x hk hlow)
  refine ⟨t, he, hframe, ?_, fun r hr => ?_⟩
  · rw [hreg, if_pos rfl, BitVec.toNat_ofNat]
    omega
  · rw [hreg, if_neg hr]

/-- Settles O48: the low byte selects the instruction, which adds the register's number to `I`. -/
theorem addToIndexWraps : Obligations.AddToIndexWraps := by
  refine ⟨decodesAs_of_decodeTF rfl decodeTF_kk1E, fun x s => ⟨_, exec_addI x s, rfl, ?_⟩⟩
  simp only [BitVec.toNat_add, toNat_wideByte]
end

section
/-! The index register and memory (spec/48_index_memory.md): the digits, the block store and the block load, in memory and past
its end; what is read back of a store, by a load and by the next fetch. -/

namespace Sys2Proof

/-! ### The decoder -/

/-- Low byte 0x29 of sub-table TF is `LD F, Vx` (R58). -/
theorem decodeTF_kk29 {w : Word} (h : fieldKK w = 0x29) : decodeTF w = .ldF (fieldX w) := by simp [decodeTF, h]

/-- Low byte 0x33 of sub-table TF is `LD B, Vx`. -/
theorem decodeTF_kk33 {w : Word} (h : fieldKK w = 0x33) : decodeTF w = .ldB (fieldX w) := by simp [decodeTF, h]

/-- Low byte 0x55 of sub-table TF is `LD [I], Vx`. -/
theorem decodeTF_kk55 {w : Word} (h : fieldKK w = 0x55) : decodeTF w = .stRegs (fieldX w) := by simp [decodeTF, h]

/-- Low byte 0x65 of sub-table TF is `LD Vx, [I]`. -/
theorem decodeTF_kk65 {w : Word} (h : fieldKK w = 0x65) : decodeTF w = .ldRegs (fieldX w) := by simp [decodeTF, h]

end Sys2Proof

namespace Sys2Proof.Machine

/-! ### Glyph addresses -/

/-- A glyph address is the exact sum (R32, R161). -/
theorem toNat_glyphAddr (base : FontBase) (d : Nibble) : (glyphAddr base d).toNat = base.val + 5 * d.toNat := by
  have := base.isLt
  have := d.isLt
  rw [glyphAddr, BitVec.toNat_ofNat]
  omega

/-- The low nibble of a byte as a number (R161). -/
theorem toNat_lowNibble (b : Byte) : (b.extractLsb' 0 4).toNat = b.toNat % 16 := by
  rw [BitVec.extractLsb'_toNat, Nat.shiftRight_zero]

/-! ### A write and a read of several bytes -/

/-- Byte `j` of a multi-byte write stands at `a + j`. -/
theorem State.byte_writeBytes_at {s : State} {a j : Nat} {bs : List Byte} (hm : s.memWf = true) (ha : a + bs.length ≤ 4096)
    (hj : j < bs.length) : (s.writeBytes a bs).byte (a + j) = bs.getD j 0 := by
  have hin : a ≤ a + j ∧ a + j < a + bs.length := by omega
  rw [State.byte_writeBytes hm ha, if_pos hin, Nat.add_sub_cancel_left]

/-- A multi-byte write changes no byte before or after it. -/
theorem State.byte_writeBytes_outside {s : State} {a k : Nat} {bs : List Byte} (hm : s.memWf = true)
    (ha : a + bs.length ≤ 4096) (hk : k < a ∨ a + bs.length ≤ k) : (s.writeBytes a bs).byte k = s.byte k := by
  have hout : ¬(a ≤ k ∧ k < a + bs.length) := by omega
  rw [State.byte_writeBytes hm ha, if_neg hout]

/-- The fetch in terms of the two bytes it reads (R36). -/
theorem State.fetch_of_bytes {s : State} {a : Nat} {b c : Byte} (hpc : s.pc.toNat = a) (ha : a ≤ 0xFFE) (hb : s.byte a = b)
    (hc : s.byte (a + 1) = c) : s.fetch = some (BitVec.ofNat 16 (256 * b.toNat + c.toNat)) := by
  subst hpc hb hc
  rw [State.fetch_of_le ha, wordOfBytes_eq_ofNat]

/-! ### Past the end of memory -/

/-- An access of `n + 1` bytes whose last one lies past 0xFFF meets the row of `DataRange` (R35, R181). -/
theorem State.dataFault_of_pastEnd {s : State} {n : Nat} (h : s.idx.toNat + n > 0xFFF) :
    s.dataFault (n + 1) 2 (max s.idx.toNat 0x1000) := ⟨⟨by omega, by omega⟩, rfl, rfl⟩

/-! ### The digits -/

/-- The three digits as numbers (R163). -/
theorem toNat_bcdDigits (b : Byte) :
    ((bcdDigits b).getD 0 0).toNat = b.toNat / 100 ∧ ((bcdDigits b).getD 1 0).toNat = b.toNat / 10 % 10 ∧
      ((bcdDigits b).getD 2 0).toNat = b.toNat % 10 := by
  have := b.isLt
  simp only [bcdDigits, List.getD_cons_zero, List.getD_cons_succ, BitVec.toNat_ofNat]
  omega

/-! ### The block store and the block load -/

section
variable {s : State} {x : RegIdx}

/-- The state after `LD [I], Vx` in memory (`exec_stRegs_of_inRange`). -/
def State.stored (s : State) (x : RegIdx) : State := s.writeBytes s.idx.toNat (s.regBlock x)

/-- The state after `LD Vx, [I]` in memory (`exec_ldRegs_of_inRange`). -/
def State.blockLoaded (s : State) (x : RegIdx) : State := s.setRegBlock (s.bytes s.idx.toNat (x.val + 1))

/-- `LD [I], Vx` with its last byte in memory stores the block (R164). -/
theorem exec_stRegs_eq_stored (h : s.idx.toNat + x.val ≤ 0xFFF) : exec (.stRegs x) s = .next (s.stored x) :=
  exec_stRegs_of_inRange s x (by omega)

/-- `LD Vx, [I]` with its last byte in memory loads the block (R165). -/
theorem exec_ldRegs_eq_blockLoaded (h : s.idx.toNat + x.val ≤ 0xFFF) : exec (.ldRegs x) s = .next (s.blockLoaded x) :=
  exec_ldRegs_of_inRange s x (by omega)

/-- The store leaves `V[r]` at `I + r`. -/
theorem State.byte_stored (hm : s.memWf = true) (h : s.idx.toNat + x.val ≤ 0xFFF) {r : RegIdx} (hr : r ≤ x) :
    (s.stored x).byte (s.idx.toNat + r.val) = s.reg r := by
  have hl : (s.regBlock x).length = x.val + 1 := State.length_regBlock s x
  have hrx : r.val ≤ x.val := hr
  rw [State.stored, State.byte_writeBytes_at hm (by omega) (by omega), State.getD_regBlock s x r hrx]

/-- The store changes no byte before or after the block. -/
theorem State.byte_stored_outside (hm : s.memWf = true) (h : s.idx.toNat + x.val ≤ 0xFFF) {a : Nat}
    (ha : a < s.idx.toNat ∨ s.idx.toNat + x.val < a) : (s.stored x).byte a = s.byte a := by
  have hl : (s.regBlock x).length = x.val + 1 := State.length_regBlock s x
  exact State.byte_writeBytes_outside hm (by omega) (by omega)

/-- The load takes `V[r]` from `I + r`, and no register above `V[x]` from anywhere. -/
theorem State.reg_blockLoaded (s : State) (x r : RegIdx) :
    (s.blockLoaded x).reg r = if r ≤ x then s.byte (s.idx.toNat + r.val) else s.reg r := by
  have hle : r.val < x.val + 1 ↔ r ≤ x := Nat.lt_succ_iff
  simp only [State.blockLoaded, State.reg_setRegBlock, State.getD_bytes, hle]

end

end Sys2Proof.Machine

open Sys2Proof Sys2Proof.Machine

/-- Settles O49: the low byte selects the instruction, which writes the glyph address of the low nibble to `I`. -/
theorem fontAddressOfLowNibble : Obligations.FontAddressOfLowNibble := by
  refine ⟨decodesAs_of_decodeTF rfl decodeTF_kk29, fun x s => ⟨_, exec_ldF x s, rfl, ?_⟩⟩
  rw [← toNat_lowNibble]
  exact toNat_glyphAddr s.fontBase _

/-- Settles O50: the low byte selects the instruction; it writes the three digits from `I` on, or past the end of memory raises
the fault of the table. -/
theorem bcdStoresThreeDigits : Obligations.BcdStoresThreeDigits := by
  refine ⟨decodesAs_of_decodeTF rfl decodeTF_kk33, fun x s hm hin => ?_, fun x s hout => ?_⟩
  · have hl : (bcdDigits (s.reg x)).length = 3 := rfl
    have hmem : s.idx.toNat + (bcdDigits (s.reg x)).length ≤ 4096 := by omega
    obtain ⟨hhundreds, htens, hones⟩ := toNat_bcdDigits (s.reg x)
    refine ⟨_, exec_ldB_of_inRange s x (by omega), rfl, ?_, ?_, ?_, fun a ha => ?_⟩
    · exact (congrArg BitVec.toNat (State.byte_writeBytes_at (j := 0) hm hmem (by omega))).trans hhundreds
    · exact (congrArg BitVec.toNat (State.byte_writeBytes_at (j := 1) hm hmem (by omega))).trans htens
    · exact (congrArg BitVec.toNat (State.byte_writeBytes_at (j := 2) hm hmem (by omega))).trans hones
    · exact State.byte_writeBytes_outside hm hmem (by omega)
  · exact exec_of_executeFaults (i := .ldB x) (State.dataFault_of_pastEnd hout)

/-- Settles O51: the low byte selects the instruction; it stores the block, or past the end of memory raises the fault of the
table. -/
theorem blockStoreWritesRegisters : Obligations.BlockStoreWritesRegisters := by
  refine ⟨decodesAs_of_decodeTF rfl decodeTF_kk55, fun x s hm hin => ?_, fun x s hout => ?_⟩
  · exact ⟨_, exec_stRegs_eq_stored hin, rfl, fun r => State.byte_stored hm hin, fun a => State.byte_stored_outside hm hin⟩
  · exact exec_of_executeFaults (i := .stRegs x) (State.dataFault_of_pastEnd hout)

/-- Settles O52: the low byte selects the instruction; it loads the block, or past the end of memory raises the fault of the
table. -/
theorem blockLoadReadsMemory : Obligations.BlockLoadReadsMemory := by
  refine ⟨decodesAs_of_decodeTF rfl decodeTF_kk65, fun x s hin => ?_, fun x s hout => ?_⟩
  · exact ⟨_, exec_ldRegs_eq_blockLoaded hin, rfl, State.reg_blockLoaded s x⟩
  · exact exec_of_executeFaults (i := .ldRegs x) (State.dataFault_of_pastEnd hout)

/-- Settles O20: the load takes `V[r]` from where the store put it. -/
theorem blockStoreLoadRoundTrip : Obligations.BlockStoreLoadRoundTrip := by
  intro s u k hm hin hidx
  refine ⟨_, exec_stRegs_eq_stored hin, fun hsame => ⟨_, exec_ldRegs_eq_blockLoaded (hidx ▸ hin), fun r hr => ?_⟩⟩
  rw [State.reg_blockLoaded, if_pos hr, hidx, hsame r.val hr, State.byte_stored hm hin hr]

/-- Settles O21: the next fetch reads two neighbours of the stored block, which the end of the cycle leaves alone. -/
theorem storeIsSeenByTheNextFetch : Obligations.StoreIsSeenByTheNextFetch := by
  intro s k j h hm hr hi hin hjk hpc
  have hadv := State.toNat_pc_advance (State.pc_le_of_instrAt hi)
  have hhigh := State.byte_stored (s := s.advance) (x := k) (r := j) hm hin (Fin.le_def.mpr (by omega))
  have hlow := State.byte_stored (s := s.advance) (x := k) (r := ⟨j.val + 1, h⟩) hm hin hjk
  refine ⟨_, step_of_exec hr hi (exec_stRegs_eq_stored (s := s.advance) hin) rfl, rfl, ?_⟩
  exact State.fetch_of_bytes (hadv.trans hpc) (by omega) hhigh hlow
end

section
/-! Memory as its bytes (spec/20_memory.md): the canonical form is unique, the font lies in its place, a program is fetched where
it was loaded, and a core in zeroed memory runs `CLS` to its end (spec/70_reset_and_hazards.md). -/

namespace Sys2Proof.Machine

/-! ### The canonical form -/

section
variable {base : FontBase} {lo : Nat} {c : Host.Cell} {m : Memory}

/-- A canonical memory with a first cell: where that cell may stand, what it may hold, and that the rest comes after it. -/
theorem Memory.wfFrom_cons_iff : Memory.wfFrom base lo (c :: m) = true ↔
    lo ≤ c.1 ∧ c.1 < 4096 ∧ c.2 ≠ resetByte base c.1 ∧ Memory.wfFrom base (c.1 + 1) m = true := by
  simp only [Memory.wfFrom, Bool.and_eq_true, decide_eq_true_eq, and_assoc]

/-- A memory reads as its first cell at that cell's address. -/
theorem Memory.read_cons_self (c : Host.Cell) (m : Memory) : Memory.read base (c :: m) c.1 = c.2 := if_pos rfl

/-- Elsewhere it reads as the rest. -/
theorem Memory.read_cons_of_ne {a : Nat} (h : c.1 ≠ a) : Memory.read base (c :: m) a = Memory.read base m a := if_neg h

/-- A canonical memory reads at the address of its first cell otherwise than one that lists nothing there or below. -/
theorem Memory.read_ne_of_first {m' : Memory} (h : Memory.wfFrom base lo (c :: m) = true)
    (h' : Memory.wfFrom base (c.1 + 1) m' = true) : Memory.read base (c :: m) c.1 ≠ Memory.read base m' c.1 := by
  obtain ⟨-, -, hne, -⟩ := Memory.wfFrom_cons_iff.mp h
  rwa [Memory.read_cons_self, Memory.read_below h' (Nat.lt_succ_self _)]

end

/-- Canonical memories that read the same at every address are the same list, from whatever address on each is canonical. -/
theorem Memory.eq_of_read_eq {base : FontBase} {m m' : Memory} {lo lo' : Nat} (h : Memory.wfFrom base lo m = true)
    (h' : Memory.wfFrom base lo' m' = true) (hread : ∀ a, a < 4096 → m.read base a = m'.read base a) : m = m' := by
  induction m generalizing m' lo lo' with
  | nil =>
    cases m' with
    | nil => rfl
    | cons c' m' =>
      obtain ⟨-, hlt', -, -⟩ := Memory.wfFrom_cons_iff.mp h'
      exact absurd (hread c'.1 hlt').symm (Memory.read_ne_of_first h' rfl)
  | cons c m ih =>
    obtain ⟨-, hlt, hne, hm⟩ := Memory.wfFrom_cons_iff.mp h
    cases m' with
    | nil => exact absurd (hread c.1 hlt) (Memory.read_ne_of_first h rfl)
    | cons c' m' =>
      obtain ⟨-, hlt', hne', hm'⟩ := Memory.wfFrom_cons_iff.mp h'
      rcases Nat.lt_trichotomy c.1 c'.1 with hbefore | haddr | hafter
      · exact absurd (hread c.1 hlt)
          (Memory.read_ne_of_first h (Memory.wfFrom_cons_iff.mpr ⟨hbefore, hlt', hne', hm'⟩))
      · have hbyte := hread c.1 hlt
        rw [Memory.read_cons_self, haddr, Memory.read_cons_self] at hbyte
        obtain rfl : c = c' := Prod.ext haddr hbyte
        refine congrArg (c :: ·) (ih hm hm' fun a ha => ?_)
        by_cases hca : c.1 = a
        · rw [Memory.read_below hm (by omega), Memory.read_below hm' (by omega)]
        · have hrest := hread a ha
          rwa [Memory.read_cons_of_ne hca, Memory.read_cons_of_ne hca] at hrest
      · exact absurd (hread c'.1 hlt').symm
          (Memory.read_ne_of_first h' (Memory.wfFrom_cons_iff.mpr ⟨hafter, hlt, hne, hm⟩))

/-! ### A run through zeroed memory -/

/-- A running core with `n` words to go to the end of memory, every byte from `PC` on 0. -/
def State.InZeroedMemory (s : State) (n : Nat) : Prop :=
  s.Running ∧ s.pc.toNat + 2 * n = 0x1000 ∧ ∀ a, s.pc.toNat ≤ a → a < 0x1000 → s.byte a = 0

/-- The state after a cycle that executed `CLS`. -/
def State.cleared (s : State) : State :=
  State.closeLoad (State.hostTurn (State.tick { s.advance with disp := Display.allOff }))

section
variable {s : State} {n : Nat}

/-- The word 0x0000 is `CLS` (R60). -/
theorem State.InZeroedMemory.step_eq (h : s.InZeroedMemory (n + 1)) : step s = .next s.cleared := by
  obtain ⟨hr, hpc, hzero⟩ := h
  have hle : s.pc.toNat ≤ 0xFFE := by omega
  have hi : s.instrAt = some .cls := by
    rw [State.instrAt_of_le hle, hzero _ (by omega) (by omega), hzero _ (by omega) (by omega)]
    rfl
  exact step_of_exec hr hi (exec_cls s.advance) rfl

/-- After it there is one word less to go. -/
theorem State.InZeroedMemory.cleared (h : s.InZeroedMemory (n + 1)) : s.cleared.InZeroedMemory n := by
  obtain ⟨hr, hpc, hzero⟩ := h
  have hadv : s.cleared.pc.toNat = s.pc.toNat + 2 := State.toNat_pc_advance (s := s) (by omega)
  exact ⟨hr, by omega, fun a ha => hzero a (by omega)⟩

/-- With no word to go the fetch fails (R180). -/
theorem State.InZeroedMemory.step_at_end (h : s.InZeroedMemory 0) :
    s.pc = 0x1000 ∧ step s = .next (State.closeLoad { s with fault := ⟨true, 1, 0x1000⟩ }) := by
  obtain ⟨hr, hpc, -⟩ := h
  have hend : s.pc = 0x1000 := BitVec.eq_of_toNat_eq hpc
  refine ⟨hend, ?_⟩
  rw [step_of_no_fetch hr (by omega), hend]

/-- `n` cycles lead to the end of memory, with the registers as they were and the display clear if it was or a cycle ran; every
longer run goes on from there. -/
theorem State.InZeroedMemory.run_add (h : s.InZeroedMemory n) :
    ∃ t : State, t.InZeroedMemory 0 ∧ t.v = s.v ∧ (0 < n ∨ s.disp = Display.allOff → t.disp = Display.allOff) ∧
      ∀ j, Sys2Proof.core.run (n + j) s = Sys2Proof.core.run j t := by
  induction n generalizing s with
  | zero => exact ⟨s, h, rfl, fun hclear => hclear.resolve_left (Nat.lt_irrefl 0), fun j => by rw [Nat.zero_add]⟩
  | succ n ih =>
    obtain ⟨t, hend, hv, hclear, hrun⟩ := ih h.cleared
    refine ⟨t, hend, hv, fun _ => hclear (Or.inr rfl), fun j => ?_⟩
    rw [Nat.add_right_comm, run_succ (n + j) h.step_eq, hrun]

end

/-- From the program start address on, memory is zeroed after reset, at every FONT_BASE (R213). -/
theorem State.inZeroedMemory_resetAt (base : FontBase) : (State.resetAt base).InZeroedMemory 1792 := by
  refine ⟨rfl, rfl, fun a ha _ => resetByte_outside (Or.inr ?_)⟩
  have hbase := base.isLt
  have hstart : 0x200 ≤ a := ha
  omega

end Sys2Proof.Machine

open Sys2Proof Sys2Proof.Machine

/-- Settles O53: both memories are canonical from address 0 on. -/
theorem canonicalMemoriesAreTheirBytes : Obligations.CanonicalMemoriesAreTheirBytes :=
  fun _ _ _ => Memory.eq_of_read_eq

/-- Settles O59: the glyph's bytes are those of the font table at `5 * d`, and the last glyph at the highest FONT_BASE ends below
0x200. -/
theorem glyphsLieBelowThePrograms : Obligations.GlyphsLieBelowThePrograms := by
  intro base d
  have hbase := base.isLt
  have hd := d.isLt
  rw [toNat_glyphAddr]
  refine ⟨rfl, by omega, fun j _ => ?_⟩
  rw [State.byte_resetAt, Nat.add_assoc, resetByte_font]

/-- Settles O56: the load stands at 0x200, where the first fetch reads it. -/
theorem firstInstructionIsTheImagesFirstWord : Obligations.FirstInstructionIsTheImagesFirstWord := by
  intro base hi lo rest hl
  have hfits : (hi :: lo :: rest).length ≤ 3584 := by simp only [List.length_cons]; omega
  have hmem : 0x200 + (hi :: lo :: rest).length ≤ 4096 := by omega
  have hwf : (State.resetAt base).memWf = true := Memory.wf_nil
  have hhigh := State.byte_writeBytes_at (j := 0) hwf hmem (Nat.succ_pos _)
  have hlow := State.byte_writeBytes_at (j := 1) hwf hmem (Nat.succ_lt_succ (Nat.succ_pos _))
  have hfetch := State.fetch_of_bytes (a := 0x200)
    (s := ((State.resetAt base).writeBytes 0x200 (hi :: lo :: rest)).closeLoad) rfl
    (by decide) hhigh hlow
  exact ⟨_, State.load_of_fits rfl hfits, rfl, congrArg (Option.map decode) hfetch⟩

/-- Settles O23: the run through zeroed memory ends where the fetch fails, and the next cycle latches that; after reset the
zeroed memory begins at 0x200. -/
theorem zeroedMemoryEndsInFetchRange : Obligations.ZeroedMemoryEndsInFetchRange := by
  refine ⟨fun s n hr hpc hzero => ?_, fun base => ?_⟩
  · have hzeroed : s.InZeroedMemory n := ⟨hr, hpc, hzero⟩
    obtain ⟨t, hend, hv, hclear, hrun⟩ := hzeroed.run_add
    obtain ⟨htpc, hstep⟩ := hend.step_at_end
    refine ⟨⟨t, hrun 0, htpc, hend.1, hv, fun hpos px py => ?_⟩, _, (hrun 1).trans (run_succ 0 hstep), htpc, rfl⟩
    rw [hclear (Or.inl hpos), Display.cell_allOff]
  · obtain ⟨t, hend, -, -, hrun⟩ := (State.inZeroedMemory_resetAt base).run_add
    obtain ⟨htpc, hstep⟩ := hend.step_at_end
    exact ⟨_, (hrun 1).trans (run_succ 0 hstep), htpc, rfl⟩

/-- Settles O58: every item takes its reset value, by the definition of the reset input. -/
theorem resetInputRestoresEverything : Obligations.ResetInputRestoresEverything :=
  fun _ => ⟨rfl, rfl, rfl⟩

/-- Settles O60: the column is the rest modulo 64 and the row the quotient. -/
theorem displayPortShowsTheCells : Obligations.DisplayPortShowsTheCells := by
  intro s x y hx _
  have hcolumn : (64 * y + x) % 64 = x := by omega
  have hrow : (64 * y + x) / 64 = y := by omega
  rw [State.dispPort, hcolumn, hrow]
end
